-- ==== Sys2Proof/Word.lean ====
section
/-! DEFINITION. The words of the command port: bytes, the 32-bit command word, and a transaction, which is a
command word with its payload (30_encoding.md rules R60, R61). -/

namespace Sys2Proof

/-- A byte: 8 bits, unsigned (00_scope.md rule R10). -/
abbrev Byte := BitVec 8

/-- The command word `CMD`, taken as one 32-bit value (30_encoding.md rule R61, 20_memory.md rule R49). -/
abbrev CmdWord := BitVec 32

/-- What accompanies a command word (30_encoding.md rule R60): data bytes in stream order (none of them where a
command has no payload), or the reference to a destination buffer in the host's memory. -/
inductive Payload where
  /-- the data bytes that follow the word; `bytes []` is 'no payload' -/
  | bytes (data : List Byte)
  /-- a destination buffer, by the address of its byte 0 in the host's memory -/
  | dest (base : Nat)
deriving DecidableEq, Repr

/-- One command transaction (30_encoding.md rule R60). -/
structure Transaction where
  cmd : CmdWord
  payload : Payload
deriving DecidableEq, Repr

end Sys2Proof
end

