-- ==== Sys2Proof/Syntax.lean ====
section
/-! DEFINITION. The commands of the engine, one constructor per row of the opcode table (30_encoding.md rule R62),
each with the operands of its transaction: the ARG field and the payload (rules R60, R63). -/

namespace Sys2Proof

/-- A command with its operands. -/
inductive Instr where
  /-- PUT n, [D0 .. D(n-1)] (42_facade.md rule R111) -/
  | put (n : BitVec 16) (data : List Byte)
  /-- PUT_ISR n, [D0 .. D(n-1)] (42_facade.md rule R113) -/
  | putIsr (n : BitVec 16) (data : List Byte)
  /-- PROCESS cap, with the destination buffer that starts at host address `base` (40_frame_sync.md rule R80) -/
  | process (cap : BitVec 16) (base : Nat)
  /-- RESET (42_facade.md rule R114) -/
  | reset
  /-- GET_STATE (42_facade.md rule R116) -/
  | getState
  /-- SET_STATE v (42_facade.md rule R115) -/
  | setState (v : BitVec 16)
  /-- a word that decodes to no command, kept whole (42_facade.md rule R117) -/
  | illegal (word : CmdWord)
deriving DecidableEq, Repr

end Sys2Proof
end

