-- ==== Sys2Proof/Decode.lean ====
section
/-! DEFINITION. The decoder of command transactions (30_encoding.md rules R60 to R68), and after it the encoder.
Every 32-bit word selects one command, ILLEGAL among them; a transaction whose payload is not the one its word
fixes is no command at all and is rejected by name (rules R60, R68; 42_facade.md rule R112). -/

namespace Sys2Proof

/-! ### Fields of the command word (rule R61) -/

/-- `OP = CMD[3:0]`. -/
def opField (w : CmdWord) : BitVec 4 := w.extractLsb' 0 4

/-- `RSVD = CMD[15:4]`. -/
def rsvdField (w : CmdWord) : BitVec 12 := w.extractLsb' 4 12

/-- `ARG = CMD[31:16]` (rule R63). -/
def argField (w : CmdWord) : BitVec 16 := w.extractLsb' 16 16

/-! ### Selecting the command -/

/-- What a command word selects: one name per row of the opcode table. -/
inductive Op where
  | put | putIsr | process | reset | getState | setState | illegal
deriving DecidableEq, Repr

/-- A row of spec/opcode_table.json: the words `w` with `w & mask = value` are this command's. -/
structure OpRow where
  op : Op
  mask : CmdWord
  value : CmdWord
deriving DecidableEq, Repr

/-- The rows of spec/opcode_table.json that have a mask; every other word is the row ILLEGAL's. -/
def opcodeTable : List OpRow :=
  [⟨.put, 0x0000FFFF#32, 0x00000001#32⟩,
   ⟨.putIsr, 0x0000FFFF#32, 0x00000002#32⟩,
   ⟨.process, 0x0000FFFF#32, 0x00000003#32⟩,
   ⟨.reset, 0xFFFFFFFF#32, 0x00000004#32⟩,
   ⟨.getState, 0xFFFFFFFF#32, 0x00000005#32⟩,
   ⟨.setState, 0x0000FFFF#32, 0x00000006#32⟩]

/-- Does the word fit the row? -/
def OpRow.fits (r : OpRow) (w : CmdWord) : Bool := w &&& r.mask == r.value

/-- The command a word selects. -/
def classify (w : CmdWord) : Op :=
  match opcodeTable.find? (fun r => r.fits w) with
  | some r => r.op
  | none => .illegal

/-- The words that 30_encoding.md rule R65 calls illegal, clause by clause. -/
def illegalWord (w : CmdWord) : Bool :=
  (opField w == 0x0#4 || 0x7#4 ≤ opField w)
    || rsvdField w != 0#12
    || ((opField w == 0x4#4 || opField w == 0x5#4) && argField w != 0#16)

/-! ### The payload -/

/-- Why a transaction is no command. -/
inductive DecodeError where
  /-- the number of data bytes is not the one the word fixes (30_encoding.md rule R68, 42_facade.md rule R112) -/
  | dataCount
  /-- PROCESS without a destination, or a destination with another word (30_encoding.md rule R60) -/
  | destination
deriving DecidableEq, Repr

/-- Does the list hold exactly `n` bytes? (Its length compared with `n`, one byte at a time.) -/
def hasCount : List Byte → Nat → Bool
  | [], 0 => true
  | _ :: data, n + 1 => hasCount data n
  | _, _ => false

/-- The payload as exactly `n` data bytes. -/
def dataOf (p : Payload) (n : Nat) : Except DecodeError (List Byte) :=
  match p with
  | .bytes data => if hasCount data n then .ok data else .error .dataCount
  | .dest _ => .error .destination

/-- The payload as a destination buffer. -/
def destOf (p : Payload) : Except DecodeError Nat :=
  match p with
  | .dest base => .ok base
  | .bytes _ => .error .destination

/-- The decoder of transactions. -/
def decode (t : Transaction) : Except DecodeError Instr :=
  match classify t.cmd with
  | .put => (dataOf t.payload (argField t.cmd).toNat).map (.put (argField t.cmd))
  | .putIsr => (dataOf t.payload (argField t.cmd).toNat).map (.putIsr (argField t.cmd))
  | .process => (destOf t.payload).map (.process (argField t.cmd))
  | .reset => (dataOf t.payload 0).map fun _ => .reset
  | .getState => (dataOf t.payload 0).map fun _ => .getState
  | .setState => (dataOf t.payload 0).map fun _ => .setState (argField t.cmd)
  | .illegal => (dataOf t.payload 0).map fun _ => .illegal t.cmd

/-! ### The encoder -/

/-- A command word from its fields, RSVD zero (rule R61's figure). -/
def cmdWord (arg : BitVec 16) (op : BitVec 4) : CmdWord := arg ++ 0#12 ++ op

/-- The command word of an instruction (rule R62). -/
def encodeWord : Instr → CmdWord
  | .put n _ => cmdWord n 0x1#4
  | .putIsr n _ => cmdWord n 0x2#4
  | .process cap _ => cmdWord cap 0x3#4
  | .reset => cmdWord 0#16 0x4#4
  | .getState => cmdWord 0#16 0x5#4
  | .setState v => cmdWord v 0x6#4
  | .illegal w => w

/-- The payload of an instruction (rule R60). -/
def encodePayload : Instr → Payload
  | .put _ data => .bytes data
  | .putIsr _ data => .bytes data
  | .process _ base => .dest base
  | .reset => .bytes []
  | .getState => .bytes []
  | .setState _ => .bytes []
  | .illegal _ => .bytes []

/-- The transaction of an instruction. -/
def encode (i : Instr) : Transaction := ⟨encodeWord i, encodePayload i⟩

/-! ### The opcode table's numbering of an instruction's bits -/

/-- `count` bytes of `w`, the least significant first. -/
def bytesOfNat : Nat → Nat → List Byte
  | 0, _ => []
  | count + 1, w => BitVec.ofNat 8 w :: bytesOfNat count (w / 256)

/-- The transaction whose bits are `w`: bits 31..0 the command word, bits 39..32 the first data byte, and so on; bits
above `nbits` are 0. A PROCESS names the destination at host address 0 (DESIGN CHOICE, log 7). -/
def tableTransaction (nbits w : Nat) : Transaction :=
  let bits := w % 2 ^ nbits
  let cmd : CmdWord := BitVec.ofNat 32 bits
  let payload : Payload :=
    match classify cmd with
    | .put | .putIsr => .bytes (bytesOfNat (argField cmd).toNat (bits / 2 ^ 32))
    | .process => .dest 0
    | .reset | .getState | .setState | .illegal => .bytes []
  ⟨cmd, payload⟩

/-- What the decoder reads from an instruction whose bits are `w`, numbered as the opcode table numbers them. -/
def decodeTableWord (nbits w : Nat) : Option Instr := (decode (tableTransaction nbits w)).toOption

end Sys2Proof
end

