-- ==== Sys2Proof/Config.lean ====
section
/-! DEFINITION. What is fixed for one engine when it is built: the configuration registers CFG0 to CFG5
(10_state.md rule R25), the construction descriptor they are loaded from (70_reset_and_hazards.md rule R140), and
the fixed constants (00_scope.md rules R5, R6). The spec leaves no result of a command undefined, so there is no
free value here. -/

namespace Sys2Proof

/-- SCAN_SCOPE (CFG5): which reads the marker search's counter counts (40_frame_sync.md rule R84). -/
inductive ScanScope where
  /-- 0: the counter is reset once, at the start of each PROCESS -/
  | perCommand
  /-- 1: the counter is also reset at every entry to HandlerFFB -/
  | perEntry
deriving DecidableEq, Repr

/-- MARKER_SIZE (00_scope.md rule R5). -/
def markerSize : Nat := 2

/-- CHK_SIZE (00_scope.md rule R5). -/
def chkSize : Nat := 1

/-- The constraints of 00_scope.md rule R4 that the registers' widths do not state already. -/
abbrev legalSizes (cap n : BitVec 16) : Prop :=
  1 ≤ cap.toNat ∧ 3 ≤ n.toNat ∧ n.toNat - markerSize ≤ cap.toNat

/-- The configuration registers CFG0 to CFG5, constant after construction (10_state.md rules R24, R25), with the proof
that they name an engine: a configuration that breaks a constraint cannot be written down, so it has no state and no
step (00_scope.md rule R7; log 16). -/
structure Cfg where
  /-- CFG0 `CAP`: the ring buffer's capacity in bytes -/
  cap : BitVec 16
  /-- CFG1 `N` (FRAME_SIZE): the frame's length in bytes -/
  n : BitVec 16
  /-- CFG2 `M0`: the marker's first byte -/
  m0 : Byte
  /-- CFG3 `M1`: the marker's second byte -/
  m1 : Byte
  /-- CFG4 `THRESHOLD`: the marker search's read threshold -/
  threshold : BitVec 16
  /-- CFG5 `SCAN_SCOPE` -/
  scanScope : ScanScope
  /-- the constraints of 00_scope.md rule R4 -/
  legal : legalSizes cap n := by decide
deriving DecidableEq, Repr

/-- POLY, the CRC polynomial (00_scope.md rule R6). -/
def crcPoly : BitVec 16 := 0x1021#16

/-- INIT, the CRC register's initial value (00_scope.md rule R6). -/
def crcInit : BitVec 16 := 0xFFFF#16

/-- The construction descriptor, its numbers not yet checked against the registers' widths
(70_reset_and_hazards.md rule R140; the two sizes are there to be refused, 00_scope.md rule R5). -/
structure Descriptor where
  cap : Nat
  n : Nat
  m0 : Nat
  m1 : Nat
  threshold : Nat
  scanScope : ScanScope
  markerSize : Nat
  chkSize : Nat
deriving DecidableEq, Repr

/-- The legal descriptors: 00_scope.md rules R4, R5 and 92_eei_decisions.md D22. -/
abbrev Descriptor.valid (d : Descriptor) : Prop :=
  1 ≤ d.cap ∧ d.cap ≤ 65535 ∧ 3 ≤ d.n ∧ d.n ≤ 65535 ∧ d.n - 2 ≤ d.cap ∧
    d.m0 ≤ 0xFF ∧ d.m1 ≤ 0xFF ∧ d.threshold ≤ 65535 ∧ d.markerSize = 2 ∧ d.chkSize = 1

/-- The sizes of a legal descriptor stay legal in the 16-bit registers. -/
theorem Descriptor.legalSizes_of_valid {d : Descriptor} (h : d.valid) :
    legalSizes (BitVec.ofNat 16 d.cap) (BitVec.ofNat 16 d.n) := by
  unfold legalSizes Sys2Proof.markerSize
  simp only [BitVec.toNat_ofNat]
  omega

/-- Loading the registers from a legal descriptor. -/
def Descriptor.toCfg (d : Descriptor) (h : d.valid) : Cfg where
  cap := BitVec.ofNat 16 d.cap
  n := BitVec.ofNat 16 d.n
  m0 := BitVec.ofNat 8 d.m0
  m1 := BitVec.ofNat 8 d.m1
  threshold := BitVec.ofNat 16 d.threshold
  scanScope := d.scanScope
  legal := legalSizes_of_valid h

/-- The default instance of 95_test_vectors.md: CAP 128 (the spec gives no default; DESIGN CHOICE, log 1), N 18,
M0 = M1 = 0xFF, THRESHOLD 2 * N, PER_COMMAND. -/
def Descriptor.default : Descriptor where
  cap := 128
  n := 18
  m0 := 0xFF
  m1 := 0xFF
  threshold := 36
  scanScope := .perCommand
  markerSize := 2
  chkSize := 1

end Sys2Proof
end

