-- ==== Sys2Proof/Machine/State.lean ====
section
/-! DEFINITION. The state of one engine instance and of the host interface around it, its state after construction,
and the reasons a step can stop. -/

namespace Sys2Proof.Machine

/-- The legal values of the register STATE (10_state.md rules R22, R23): the value 3 is never held. -/
inductive ParserState where
  /-- 0: FindFirstByte, the initial state -/
  | ffb
  /-- 1: FindSecondByte -/
  | fsb
  /-- 2: WaitAndCopyMessage -/
  | wait
deriving DecidableEq, Repr

/-- STATUS (30_encoding.md rule R64); the code 3 is never returned. -/
inductive Status where
  /-- 0: the command was executed -/
  | ok
  /-- 1: SET_STATE with a value outside 0, 1, 2 -/
  | rejected
  /-- 2: the word decodes to no command -/
  | illegal
deriving DecidableEq, Repr

/-- A command's response: the pair STATUS, RESULT (10_state.md rule R30). -/
structure Response where
  status : Status
  result : BitVec 16
deriving DecidableEq, Repr

/-- The handlers' return code, never shown to the host (00_scope.md rule R15, 10_state.md rule R29). `brk` is the
spec's Break. -/
inductive ReturnCode where
  | inProgress
  | messageCopied
  | brk
deriving DecidableEq, Repr

/-- The host's destination memory: address and byte, addresses strictly rising. An unlisted address has no known
value (log 3). -/
abbrev Memory := List Host.Cell

/-- The canonical form of a memory. -/
abbrev Memory.wf (m : Memory) : Prop := List.Pairwise (fun x y => x.1 < y.1) m

/-- The engine's architectural state (10_state.md) and the host interface (log 2, log 3, log 4). -/
structure State where
  /-- CFG0 to CFG5, a legal configuration by its type (10_state.md rules R24, R25; 00_scope.md rule R7) -/
  cfg : Cfg
  /-- the register STATE (10_state.md rule R22) -/
  state : ParserState
  /-- RB, oldest byte first (10_state.md rule R26); COUNT is its length (rule R27) -/
  rb : List Byte
  /-- STATUS and RESULT of the last command; no value before the first (10_state.md rule R30) -/
  response : Option Response
  /-- the host's destination memory (20_memory.md rule R47) -/
  dst : Memory
  /-- the (index, byte) pairs the last accepted command wrote, in order (70_reset_and_hazards.md rule R155) -/
  destWrites : List Host.Cell
  /-- the transactions the host has still to issue, the next one first (00_scope.md rule R8) -/
  port : List Transaction
deriving DecidableEq, Repr

/-- What exists inside one PROCESS command only (10_state.md rule R28): the engine with SCAN_CNT and RC beside it. -/
structure Call where
  m : State
  scanCnt : BitVec 17
  rc : ReturnCode
deriving DecidableEq, Repr

/-- The faults of the machine: there are none. The engine has no trap and no fault state; every condition is a
response (60_exceptions.md rules R130, R133; 93_implementation_defined.md section 1). -/
inductive Fault
deriving DecidableEq, Repr

/-- Why the machine has no move. -/
inductive Refusal where
  /-- raised by an arm of `exec` whose instruction has no meaning yet; safe -/
  | notModelled (mnemonic : String)
  /-- raised by `step`: the number of data bytes is not the one the word fixes, which the spec gives no move
  (42_facade.md rule R112; U2 of 93_implementation_defined.md); unsafe for a host that does so (D30) -/
  | dataCount
  /-- raised by `step`: a PROCESS without a destination buffer, or a destination with another word, which is no
  transaction (30_encoding.md rule R60); unsafe for a host that does so (D10) -/
  | destination
deriving DecidableEq, Repr

/-- The state right after construction with the registers `c`, which are a legal configuration by their type
(70_reset_and_hazards.md rule R141, 00_scope.md rule R7). -/
def State.ofCfg (c : Cfg) : State where
  cfg := c
  state := .ffb
  rb := []
  response := none
  dst := []
  destWrites := []
  port := []

/-- Construction (70_reset_and_hazards.md rules R140, R142): a descriptor that breaks a constraint yields no instance. -/
def State.construct (d : Descriptor) : Option State :=
  if h : d.valid then some (State.ofCfg (d.toCfg h)) else none

/-- The machine right after reset: the default instance in its construction state (10_state.md rule R34; log 1). -/
def State.reset : State := State.ofCfg (Descriptor.default.toCfg (by decide))

end Sys2Proof.Machine
end

