-- ==== Sys2Proof/Machine/Operands.lean ====
section
/-! DEFINITION. The operand forms of the commands (30_encoding.md rule R63): a byte count, a destination capacity and
a state value, all the zero-extended ARG field; and the numbers that results are made of. -/

namespace Sys2Proof.Machine

/-- ARG as a count of bytes: PUT's n, PROCESS's dst_capacity (30_encoding.md rule R63). -/
def countOperand (arg : BitVec 16) : Nat := arg.toNat

/-- The code of STATE in its 2-bit register (30_encoding.md rule R69). -/
def ParserState.code : ParserState → BitVec 2
  | .ffb => 0#2
  | .fsb => 1#2
  | .wait => 2#2

/-- ARG as SET_STATE's value: 0, 1 and 2 are states, every other value is none (30_encoding.md rules R66, R69). -/
def stateOperand (v : BitVec 16) : Option ParserState :=
  match v.toNat with
  | 0 => some .ffb
  | 1 => some .fsb
  | 2 => some .wait
  | _ => none

/-- `zext_16` of a count as a RESULT (30_encoding.md rule R64). -/
def countResult (k : Nat) : BitVec 16 := BitVec.ofNat 16 k

/-- `zext_16(STATE)` as a RESULT (42_facade.md rules R115, R116). -/
def stateResult (p : ParserState) : BitVec 16 := p.code.setWidth 16

end Sys2Proof.Machine
end

