-- ==== Sys2Proof/Machine/Ops.lean ====
section
/-! DEFINITION. The shared operations: the ring-buffer primitives (00_scope.md rule R12, 20_memory.md rules R40 to
R45), the destination primitives (00_scope.md rule R13, 20_memory.md rule R47), and the end of a command, which is
how every condition is reported: the engine takes no exception and returns from none (60_exceptions.md rules R133,
R134). -/

namespace Sys2Proof.Machine

/-! ### Destination memory -/

/-- The byte at an address; an unlisted address has no known value (log 3). -/
def Memory.read : Memory → Nat → Option Byte
  | [], _ => none
  | (a, b) :: m, x => if x = a then some b else Memory.read m x

/-- The memory with one byte written, in canonical form. -/
def Memory.write : Memory → Nat → Byte → Memory
  | [], x, v => [(x, v)]
  | (a, b) :: m, x, v =>
    if x < a then (x, v) :: (a, b) :: m
    else if x = a then (x, v) :: m
    else (a, b) :: Memory.write m x v

/-- `MemRead`: the `n` bytes from an address on; no value if one of them has none. -/
def Memory.readBytes (m : Memory) : Nat → Nat → Option (List Byte)
  | _, 0 => some []
  | a, n + 1 =>
    match m.read a, m.readBytes (a + 1) n with
    | some b, some bs => some (b :: bs)
    | _, _ => none

/-- `DestWrite(i, v)` into the buffer that starts at `base` (00_scope.md rule R13). -/
def State.destWrite (s : State) (base i : Nat) (v : Byte) : State :=
  { s with dst := s.dst.write (base + i) v, destWrites := s.destWrites ++ [(i, v)] }

/-! ### Ring buffer -/

/-- `RbCount()`: COUNT (10_state.md rule R27). -/
def State.rbCount (s : State) : Nat := s.rb.length

/-- `RbPop()`: the oldest byte, removed; none when RB is empty. -/
def State.rbPop (s : State) : Option (Byte × State) :=
  match s.rb with
  | [] => none
  | b :: rest => some (b, { s with rb := rest })

/-- `RbPush(b)`: `b` appended as the newest byte. -/
def State.rbPush (s : State) (b : Byte) : State := { s with rb := s.rb ++ [b] }

/-- How many of `n` bytes a write accepts (20_memory.md rule R41). -/
def State.rbAccepts (s : State) (n : Nat) : Nat := min n (s.cfg.cap.toNat - s.rbCount)

/-- The write contract: the accepted prefix of `src`, pushed in order (20_memory.md rule R41). -/
def State.rbWrite (s : State) (src : List Byte) (n : Nat) : State :=
  (src.take (s.rbAccepts n)).foldl State.rbPush s

/-- `RbClear()` (20_memory.md rule R44). -/
def State.rbClear (s : State) : State := { s with rb := [] }

/-! ### The end of a command -/

/-- A command ends by setting STATUS and RESULT (00_scope.md rule R14, 10_state.md rule R30). -/
def State.respond (s : State) (status : Status) (result : BitVec 16) : State :=
  { s with response := some ⟨status, result⟩ }

end Sys2Proof.Machine
end

