-- ==== Sys2Proof/Machine/Facade.lean ====
section
/-! DEFINITION. The parser facade's commands: PUT, PUT_ISR, RESET, SET_STATE, GET_STATE, and the illegal words
(42_facade.md). -/

namespace Sys2Proof.Machine

/-- The facade's Put: append the accepted prefix, answer how many bytes (42_facade.md rule R111). -/
def putBytes (n : BitVec 16) (data : List Byte) (s : State) : State :=
  (s.rbWrite data (countOperand n)).respond .ok (countResult (s.rbAccepts (countOperand n)))

/-- PUT (42_facade.md rule R111). -/
def execPut (n : BitVec 16) (data : List Byte) (s : State) : Host.Outcome State Fault Refusal :=
  .next (putBytes n data s)

/-- PUT_ISR (42_facade.md rule R113). -/
def execPutIsr (n : BitVec 16) (data : List Byte) (s : State) : Host.Outcome State Fault Refusal :=
  .next (putBytes n data s)

/-- RESET (42_facade.md rule R114). -/
def execReset (s : State) : Host.Outcome State Fault Refusal :=
  .next ({ s.rbClear with state := .ffb }.respond .ok (countResult s.rbCount))

/-- SET_STATE (42_facade.md rule R115). -/
def execSetState (v : BitVec 16) (s : State) : Host.Outcome State Fault Refusal :=
  match stateOperand v with
  | some p => .next ({ s with state := p }.respond .ok (stateResult p))
  | none => .next (s.respond .rejected (stateResult s.state))

/-- GET_STATE (42_facade.md rule R116). -/
def execGetState (s : State) : Host.Outcome State Fault Refusal :=
  .next (s.respond .ok (stateResult s.state))

/-- An illegal word (42_facade.md rule R117): whatever its bits, the response and nothing else. -/
def execIllegal (_word : CmdWord) (s : State) : Host.Outcome State Fault Refusal :=
  .next (s.respond .illegal 0#16)

end Sys2Proof.Machine
end

