-- ==== Sys2Proof/Machine/Crc.lean ====
section
/-! DEFINITION. The CRC engine: a pure function (41_crc.md). -/

namespace Sys2Proof.Machine

/-- `CrcBit` (41_crc.md rule R102). -/
def crcBit (c : BitVec 16) : BitVec 16 :=
  if c.getLsbD 15 then (c <<< 1) ^^^ crcPoly else c <<< 1

/-- `k` steps of `CrcBit`. -/
def crcBits : Nat → BitVec 16 → BitVec 16
  | 0, c => c
  | k + 1, c => crcBits k (crcBit c)

/-- `CrcByte` (41_crc.md rule R101). -/
def crcByte (c : BitVec 16) (b : Byte) : BitVec 16 :=
  crcBits 8 (c ^^^ (b.setWidth 16 <<< 8))

/-- `crc16` (41_crc.md rules R100, R103): the register after the last byte, as it stands. -/
def crc16 (p : List Byte) : BitVec 16 := p.foldl crcByte crcInit

/-- The low byte of a CRC, the part a frame's checksum byte is compared with (41_crc.md rule R105). -/
def crcLow (c : BitVec 16) : Byte := c.extractLsb' 0 8

/-- One bit of the bit-serial form (41_crc.md rule R107): `fb` is `c[15] ^ bit`. -/
def crcSerialBit (c : BitVec 16) (bit : Bool) : BitVec 16 :=
  if c.getLsbD 15 ^^ bit then (c <<< 1) ^^^ crcPoly else c <<< 1

/-- `CrcByteSerial`: the byte's bits 7 down to 0, one at a time (41_crc.md rule R107). -/
def crcByteSerial (c : BitVec 16) (b : Byte) : BitVec 16 :=
  [7, 6, 5, 4, 3, 2, 1, 0].foldl (fun c k => crcSerialBit c (b.getLsbD k)) c

end Sys2Proof.Machine
end

