-- ==== Sys2Proof/Machine/Flags.lean ====
section
/-! DEFINITION. The engine has no flags and no condition codes (10_state.md rule R29). What stands in their place:
the codes of STATUS, and PROCESS's RESULT from the handlers' return code. -/

namespace Sys2Proof.Machine

/-- The 2-bit code of STATUS (30_encoding.md rule R64). -/
def Status.code : Status → BitVec 2
  | .ok => 0#2
  | .rejected => 1#2
  | .illegal => 2#2

/-- PROCESS's RESULT: N if the final return code is MessageCopied, 0 otherwise (40_frame_sync.md rule R82). -/
def processResult (rc : ReturnCode) (n : BitVec 16) : BitVec 16 :=
  match rc with
  | .messageCopied => n
  | .inProgress => 0#16
  | .brk => 0#16

end Sys2Proof.Machine
end

