-- ==== Sys2Proof/Machine/FrameSync.lean ====
section
/-! DEFINITION. The frame-sync state machine and PROCESS (40_frame_sync.md). -/

namespace Sys2Proof.Machine

/-! ### The marker detector -/

/-- What HandlerFFB's loop leaves: was M0 found, SCAN_CNT, and the bytes still in RB. -/
structure Scan where
  found : Bool
  cnt : BitVec 17
  rest : List Byte
deriving DecidableEq, Repr

/-- HandlerFFB's loop over RB: `b :: rest` is `RbPop()` (40_frame_sync.md rules R83, R84). -/
def scanMarker (m0 : Byte) (threshold : BitVec 16) (cnt : BitVec 17) : List Byte → Scan
  | [] => ⟨false, cnt, []⟩
  | b :: rest =>
    if b = m0 then ⟨true, cnt + 1#17, rest⟩
    else if threshold.setWidth 17 < cnt + 1#17 then ⟨false, cnt + 1#17, rest⟩
    else scanMarker m0 threshold (cnt + 1#17) rest

/-- SCAN_CNT as HandlerFFB starts with it (40_frame_sync.md rule R84). -/
def scanStart (scope : ScanScope) (cnt : BitVec 17) : BitVec 17 :=
  match scope with
  | .perCommand => cnt
  | .perEntry => 0#17

/-- HandlerFFB: FindFirstByte (40_frame_sync.md rule R83). -/
def handlerFFB (k : Call) : Call :=
  let r := scanMarker k.m.cfg.m0 k.m.cfg.threshold (scanStart k.m.cfg.scanScope k.scanCnt) k.m.rb
  if r.found then
    { m := { k.m with rb := r.rest, state := .fsb }, scanCnt := r.cnt, rc := .inProgress }
  else
    { m := { k.m with rb := r.rest }, scanCnt := r.cnt, rc := .brk }

/-- HandlerFSB: FindSecondByte (40_frame_sync.md rule R85). -/
def handlerFSB (k : Call) : Call :=
  match k.m.rbPop with
  | none => { k with rc := .brk }
  | some (b, m) => { k with m := { m with state := if b = m.cfg.m1 then .wait else .ffb }, rc := .inProgress }

/-! ### The frame-length validator and copier -/

/-- The copy's loop: `count` bytes of RB into the destination from index `i` on (40_frame_sync.md rule R87). -/
def copyBytes (base : Nat) : Nat → Nat → State → State
  | 0, _, s => s
  | count + 1, i, s =>
    match s.rbPop with
    | none => s
    | some (b, s') => copyBytes base count (i + 1) (s'.destWrite base i b)

/-- The copy: the configured marker bytes, then N - 2 bytes of RB; STATE becomes FFB whatever the checksum says
(40_frame_sync.md rule R87). -/
def copyFrame (base : Nat) (s : State) : State :=
  { copyBytes base (s.cfg.n.toNat - markerSize) markerSize
      ((s.destWrite base 0 s.cfg.m0).destWrite base 1 s.cfg.m1) with state := .ffb }

/-- The checksum test over the bytes read back from the destination (40_frame_sync.md rule R88, 41_crc.md rules R104,
R105). After a copy each of these bytes has a value, so the last arm is never taken (log 6). -/
def checksumMatches (base : Nat) (s : State) : Bool :=
  match s.dst.readBytes (base + markerSize) (s.cfg.n.toNat - markerSize - chkSize),
      s.dst.read (base + (s.cfg.n.toNat - chkSize)) with
  | some payload, some chk => crcLow (crc16 payload) == chk
  | _, _ => false

/-- HandlerWAIT's precondition: `cap >= N` and `RbCount() >= N - 2` (40_frame_sync.md rule R86). -/
def copyAllowed (cap : BitVec 16) (s : State) : Bool :=
  s.cfg.n.toNat ≤ countOperand cap && s.cfg.n.toNat - markerSize ≤ s.rbCount

/-- HandlerWAIT: WaitAndCopyMessage (40_frame_sync.md rules R86 to R88). -/
def handlerWAIT (cap : BitVec 16) (base : Nat) (k : Call) : Call :=
  if copyAllowed cap k.m then
    { k with
      m := copyFrame base k.m
      rc := if checksumMatches base (copyFrame base k.m) then .messageCopied else .brk }
  else
    { k with rc := .brk }

/-! ### The driver and the command -/

/-- The handler of the current STATE (40_frame_sync.md rule R81). -/
def handler (cap : BitVec 16) (base : Nat) (k : Call) : Call :=
  match k.m.state with
  | .ffb => handlerFFB k
  | .fsb => handlerFSB k
  | .wait => handlerWAIT cap base k

/-- RunDriver with at most `fuel` handler invocations (40_frame_sync.md rule R81). -/
def runDriver (cap : BitVec 16) (base : Nat) : Nat → Call → Call
  | 0, k => k
  | fuel + 1, k =>
    let k' := handler cap base k
    if k'.rc = .inProgress then runDriver cap base fuel k' else k'

/-- PROCESS's call as the driver leaves it: SCAN_CNT starts at 0, and C0 + 1 handler invocations are enough
(40_frame_sync.md rules R80, R90; log 5). -/
def processCall (cap : BitVec 16) (base : Nat) (s : State) : Call :=
  runDriver cap base (s.rbCount + 1) { m := s, scanCnt := 0#17, rc := .inProgress }

/-- PROCESS (40_frame_sync.md rules R80, R82). -/
def execProcess (cap : BitVec 16) (base : Nat) (s : State) : Host.Outcome State Fault Refusal :=
  let k := processCall cap base s
  .next (k.m.respond .ok (processResult k.rc k.m.cfg.n))

end Sys2Proof.Machine
end

