-- ==== Sys2Proof/Machine/Dispatch.lean ====
section
/-! DEFINITION. One arm per command (42_facade.md rule R110). -/

namespace Sys2Proof.Machine

/-- What a command does. -/
def exec (i : Instr) (s : State) : Host.Outcome State Fault Refusal :=
  match i with
  | .put n data => Sys2Proof.Machine.execPut n data s
  | .putIsr n data => Sys2Proof.Machine.execPutIsr n data s
  | .process cap base => Sys2Proof.Machine.execProcess cap base s
  | .reset => Sys2Proof.Machine.execReset s
  | .getState => Sys2Proof.Machine.execGetState s
  | .setState v => Sys2Proof.Machine.execSetState v s
  | .illegal word => Sys2Proof.Machine.execIllegal word s

end Sys2Proof.Machine
end

