-- ==== Sys2Proof/Machine/Port.lean ====
section
/-! DEFINITION. The command port: accepting a transaction, refusing what is none, and issuing (00_scope.md rule R8,
30_encoding.md rule R60; log 2). -/

namespace Sys2Proof.Machine

/-- The state as a command finds it: its transaction taken from the port, no destination byte written yet. -/
def State.accept (s : State) (later : List Transaction) : State :=
  { s with port := later, destWrites := [] }

/-- The refusal of a transaction that is no command. -/
def portRefusal : DecodeError → Refusal
  | .dataCount => .dataCount
  | .destination => .destination

/-- The host issues transactions after those it has issued already. -/
def State.issue (s : State) (ts : List Transaction) : State := { s with port := s.port ++ ts }

/-- The state in which `t` is the very next transaction. -/
def State.issueNext (s : State) (t : Transaction) : State := { s with port := t :: s.port }

end Sys2Proof.Machine
end

