-- ==== Sys2Proof/Machine/Step.lean ====
section
/-! DEFINITION. One step: the engine takes the next transaction from the command port, decodes it and runs it to
completion (00_scope.md rule R8, 42_facade.md rule R110). -/

namespace Sys2Proof.Machine

/-- One command of the machine. With no command issued the engine is idle and everything persists
(60_exceptions.md rule R139). -/
def step (s : State) : Host.Outcome State Fault Refusal :=
  match s.port with
  | [] => .next s
  | t :: later =>
    match decode t with
    | .ok i => exec i (s.accept later)
    | .error e => .refused (portRefusal e)

/-- The state with the instruction whose bits are `w` as the next transaction on the command port. -/
def State.withFetchWord (s : State) (nbits w : Nat) : State :=
  s.issueNext (tableTransaction nbits w)

end Sys2Proof.Machine
end

