-- ==== Sys2Proof/WellFormed.lean ====
section
/-! DEFINITION. Which terms of `Instr` are commands: the data bytes of a PUT are as many as its ARG says, and the
word of an ILLEGAL is one that decodes to no command. -/

namespace Sys2Proof

/-- The check on an instruction (42_facade.md rule R112, 30_encoding.md rule R65). -/
def Instr.wellFormed : Instr → Bool
  | .put n data => data.length == n.toNat
  | .putIsr n data => data.length == n.toNat
  | .process _ _ => true
  | .reset => true
  | .getState => true
  | .setState _ => true
  | .illegal w => illegalWord w

end Sys2Proof
end

