-- ==== Sys2Proof/Safety.lean ====
section
/-! DEFINITION. The terms claims are stated in: the invariant of an engine instance, frames, the marker search's
noise, and what a run shows. -/

namespace Sys2Proof.Machine

/-- The invariant of an instance: a ring buffer within its capacity (20_memory.md rule R45) and a destination memory in
canonical form. That CFG is a legal configuration (00_scope.md rules R4, R7) and STATE 0, 1 or 2 (10_state.md rule R23)
is in their types. -/
structure State.Inv (s : State) : Prop where
  rb_le_cap : s.rb.length ≤ s.cfg.cap.toNat
  dst_wf : s.dst.wf

/-- The frame that carries a payload (30_encoding.md rule R70). -/
def frameOf (c : Cfg) (payload : List Byte) : List Byte :=
  [c.m0, c.m1] ++ payload ++ [crcLow (crc16 payload)]

/-- Bytes with their destination indices, from index 0 on. -/
def indexed (bytes : List Byte) : List Host.Cell := (List.range bytes.length).zip bytes

/-- Every address outside `n` bytes from `base` on reads in `m'` as in `m`. -/
def Memory.sameOutside (m m' : Memory) (base n : Nat) : Prop :=
  ∀ a, (a < base ∨ base + n ≤ a) → m'.read a = m.read a

/-- How many bytes other than M0 one HandlerFFB invocation consumes. -/
def ffbNoise (k : Call) : Nat :=
  ((k.m.rb.take (k.m.rb.length - (handlerFFB k).m.rb.length)).filter (· != k.m.cfg.m0)).length

/-- How many bytes other than M0 the HandlerFFB invocations of one driver run consume together
(40_frame_sync.md rule R84 (a)). -/
def driverNoise (cap : BitVec 16) (base : Nat) : Nat → Call → Nat
  | 0, _ => 0
  | fuel + 1, k =>
    (if k.m.state = .ffb then ffbNoise k else 0) +
      (if (handler cap base k).rc = .inProgress then driverNoise cap base fuel (handler cap base k) else 0)

/-- What one command shows (70_reset_and_hazards.md rule R155): its response, and the destination bytes it wrote. -/
structure CommandRecord where
  response : Option Response
  writes : List Host.Cell
deriving DecidableEq, Repr

/-- What a run shows (70_reset_and_hazards.md rule R155): each command's record in order, and the final STATE and RB. -/
structure RunRecord where
  commands : List CommandRecord
  finalState : ParserState
  finalRb : List Byte
deriving DecidableEq, Repr

/-- What a run shows that ends in this state. -/
def State.finalRecord (s : State) : RunRecord := ⟨[], s.state, s.rb⟩

/-- What a run shows whose first command ended in `s'`, the rest of it showing `r`. -/
def RunRecord.after (r : RunRecord) (s' : State) : RunRecord :=
  { r with commands := ⟨s'.response, s'.destWrites⟩ :: r.commands }

/-- What a run of at most `k` commands shows. The run ends when the host issues no further command
(70_reset_and_hazards.md rule R155), and where there is no move. -/
def observe : Nat → State → RunRecord
  | 0, s => s.finalRecord
  | k + 1, s =>
    match s.port, step s with
    | [], _ => s.finalRecord
    | _ :: _, .next s' => (observe k s').after s'
    | _ :: _, .fault _ => s.finalRecord
    | _ :: _, .refused _ => s.finalRecord

end Sys2Proof.Machine
end

