-- ==== Sys2Proof/Certificates/Slice0/Obligations.lean ====
section
/-! DEFINITION. The statements for the provers. Each is about every state and every operand that meets its
hypotheses; rules R<n> are spec/'s. -/

open Sys2Proof Sys2Proof.Machine

/-! ### Encoding (30_encoding.md) -/

/-- The example words of 30_encoding.md section 9 (its rule R74 marks them as derived) decode to the commands they
are listed with. -/
def Obligations.SampleWordsDecode : Prop :=
  (∀ data, data.length = 18 → decode ⟨0x00120001#32, .bytes data⟩ = .ok (.put 18#16 data)) ∧
  (∀ data, data.length = 5 → decode ⟨0x00050002#32, .bytes data⟩ = .ok (.putIsr 5#16 data)) ∧
  (∀ base, decode ⟨0x00120003#32, .dest base⟩ = .ok (.process 18#16 base)) ∧
  (∀ base, decode ⟨0x00110003#32, .dest base⟩ = .ok (.process 17#16 base)) ∧
  decode ⟨0x00000004#32, .bytes []⟩ = .ok .reset ∧
  decode ⟨0x00000005#32, .bytes []⟩ = .ok .getState ∧
  decode ⟨0x00020006#32, .bytes []⟩ = .ok (.setState 2#16) ∧
  decode ⟨0x00030006#32, .bytes []⟩ = .ok (.setState 3#16) ∧
  decode ⟨0x00000000#32, .bytes []⟩ = .ok (.illegal 0x00000000#32) ∧
  decode ⟨0x00000014#32, .bytes []⟩ = .ok (.illegal 0x00000014#32) ∧
  decode ⟨0x00010004#32, .bytes []⟩ = .ok (.illegal 0x00010004#32)

/-- Decoding the transaction of a well-formed command gives the command back, with every operand at every value. -/
def Obligations.DecodeInvertsEncode : Prop :=
  ∀ i : Instr, i.wellFormed = true → decode (encode i) = .ok i

/-- What the decoder reads is well formed, and encoding it gives the transaction back: no bit of a word and no byte
of a payload is dropped. -/
def Obligations.EncodeInvertsDecode : Prop :=
  ∀ (t : Transaction) (i : Instr), decode t = .ok i → encode i = t ∧ i.wellFormed = true

/-- R65 and R117: a word is illegal exactly under (a), (b) or (c); it then executes as ILLEGAL, answering
(ILLEGAL, 0) and changing nothing else; every other word is legal and selects the command of its OP. -/
def Obligations.IllegalWordsExactlyAndInert : Prop :=
  ∀ w : CmdWord,
    let illegal :=
      ((opField w).toNat = 0x0 ∨ 0x7 ≤ (opField w).toNat) ∨ rsvdField w ≠ 0#12 ∨
        (((opField w).toNat = 0x4 ∨ (opField w).toNat = 0x5) ∧ argField w ≠ 0#16)
    (illegal →
      classify w = .illegal ∧ decode ⟨w, .bytes []⟩ = .ok (.illegal w) ∧
      ∀ s : State, exec (.illegal w) s = .next { s with response := some ⟨.illegal, 0#16⟩ }) ∧
    (¬ illegal →
      ((opField w).toNat = 0x1 ∧ classify w = .put) ∨ ((opField w).toNat = 0x2 ∧ classify w = .putIsr) ∨
      ((opField w).toNat = 0x3 ∧ classify w = .process) ∨ ((opField w).toNat = 0x4 ∧ classify w = .reset) ∨
      ((opField w).toNat = 0x5 ∧ classify w = .getState) ∨ ((opField w).toNat = 0x6 ∧ classify w = .setState))

/-- No word fits two rows of the opcode table. -/
def Obligations.OpcodeRowsDisjoint : Prop :=
  opcodeTable.Pairwise fun r r' => ∀ w : CmdWord, ¬ (r.fits w = true ∧ r'.fits w = true)

/-- R68: the word alone fixes the transaction's length. A legal PUT or PUT_ISR word is followed by exactly ARG data
bytes, every other word by none, an illegal word with a PUT's low nibble too, and a PROCESS word too. -/
def Obligations.TransactionLengthFixedByWord : Prop :=
  (∀ (w : CmdWord) (data : List Byte), classify w ≠ .process →
    ((∃ i, decode ⟨w, .bytes data⟩ = .ok i) ↔
      data.length = if classify w = .put ∨ classify w = .putIsr then (argField w).toNat else 0)) ∧
  (∀ (w : CmdWord) (data : List Byte), classify w = .process → data ≠ [] →
    ¬ ∃ i, decode ⟨w, .bytes data⟩ = .ok i) ∧
  (∀ (w : CmdWord) (data : List Byte), rsvdField w ≠ 0#12 →
    ((∃ i, decode ⟨w, .bytes data⟩ = .ok i) ↔ data = []))

/-! ### The step -/

/-- When the next transaction on the command port decodes to a command, a step is that command's execution on the
state whose port has moved past the transaction and whose record of destination writes is empty (log 2, log 4). -/
def Obligations.StepRunsDecodedCommand : Prop :=
  ∀ (s : State) (t : Transaction) (later : List Transaction) (i : Instr),
    s.port = t :: later → decode t = .ok i →
      step s = exec i { s with port := later, destWrites := [] }

/-- R112: a PUT or PUT_ISR word followed by a number of data bytes other than its ARG has no move. -/
def Obligations.WrongDataCountHasNoMove : Prop :=
  ∀ (s : State) (w : CmdWord) (data : List Byte) (later : List Transaction),
    (classify w = .put ∨ classify w = .putIsr) → data.length ≠ (argField w).toNat →
    s.port = ⟨w, .bytes data⟩ :: later → step s = .refused .dataCount

/-- The model's reading (log 9) of 30_encoding.md section 1 for other payloads a word does not fix: data bytes after
another word, a PROCESS without a destination, and a destination with another word have no move. A PROCESS word decodes
exactly with a destination. -/
def Obligations.StrayPayloadHasNoMove : Prop :=
  (∀ (w : CmdWord) (p : Payload), classify w = .process →
    ((∃ i, decode ⟨w, p⟩ = .ok i) ↔ ∃ base, p = .dest base)) ∧
  ∀ (s : State) (w : CmdWord) (later : List Transaction),
    (∀ data, classify w ≠ .put → classify w ≠ .putIsr → classify w ≠ .process → data ≠ [] →
      s.port = ⟨w, .bytes data⟩ :: later → step s = .refused .dataCount) ∧
    (∀ data, classify w = .process → s.port = ⟨w, .bytes data⟩ :: later → step s = .refused .destination) ∧
    (∀ base, classify w ≠ .process → s.port = ⟨w, .dest base⟩ :: later → step s = .refused .destination)

/-- With no command issued the engine is idle and all state persists (60_exceptions.md section 4; log 2). -/
def Obligations.IdleEngineKeepsState : Prop :=
  ∀ s : State, s.port = [] → step s = .next s

/-- Every command, in every state, completes with a response: the engine never traps. STATUS (R64's codes) is 2,
ILLEGAL, exactly for an illegal word, 1, REJECTED, exactly for SET_STATE with a value above 2, and 0, OK, for every
other command; the code 3 is never returned. -/
def Obligations.EveryCommandAnswers : Prop :=
  ∀ (i : Instr) (s : State), ∃ t r, exec i s = .next t ∧ t.response = some r ∧ r.status.code ≠ 3#2 ∧
    (r.status = .illegal ↔ ∃ w, i = .illegal w) ∧
    (r.status = .rejected ↔ ∃ v, i = .setState v ∧ 2 < v.toNat) ∧
    r.status.code =
      (match i with
        | .illegal _ => 2#2
        | .setState v => if 2 < v.toNat then 1#2 else 0#2
        | .put _ _ | .putIsr _ _ | .process _ _ | .reset | .getState => 0#2)

/-- A step faults never, and is refused only for a transaction that is no command. -/
def Obligations.StepStopsOnlyOnMalformedTransactions : Prop :=
  ∀ s : State, (∃ t, step s = .next t) ∨
    (∃ w later e, s.port = w :: later ∧ decode w = .error e ∧ step s = .refused (portRefusal e))

/-! ### The ring buffer (20_memory.md) -/

/-- R40: RB is first in, first out. Popping gives and removes the oldest byte; a pushed byte comes after every byte
already buffered. -/
def Obligations.RingBufferIsFifo : Prop :=
  (∀ s : State, s.rbPop = none ↔ s.rb = []) ∧
  (∀ (s : State) (b : Byte), s.rb = [] → (s.rbPush b).rbPop = some (b, s)) ∧
  (∀ (s s' : State) (x b : Byte), s.rbPop = some (x, s') →
    s.rb = x :: s'.rb ∧ (s.rbPush b).rbPop = some (x, s'.rbPush b))

/-- R45: COUNT never exceeds CAP, at every handler boundary of a PROCESS too; exactly CAP bytes are usable; once
full, every PUT returns 0. -/
def Obligations.CountNeverExceedsCapacity : Prop :=
  (∀ (i : Instr) (s t : State), s.rb.length ≤ s.cfg.cap.toNat → exec i s = .next t →
    t.rb.length ≤ t.cfg.cap.toNat) ∧
  (∀ (cap : BitVec 16) (base fuel : Nat) (k : Call), k.m.rb.length ≤ k.m.cfg.cap.toNat →
    (runDriver cap base fuel k).m.rb.length ≤ (runDriver cap base fuel k).m.cfg.cap.toNat) ∧
  (∀ (n : BitVec 16) (data : List Byte) (s : State), data.length = n.toNat →
    s.rb.length + n.toNat ≤ s.cfg.cap.toNat →
    exec (.put n data) s = .next { s with rb := s.rb ++ data, response := some ⟨.ok, n⟩ }) ∧
  (∀ (n : BitVec 16) (data : List Byte) (s : State), data.length = n.toNat →
    s.rb.length = s.cfg.cap.toNat →
    exec (.put n data) s = .next { s with response := some ⟨.ok, 0#16⟩ })

/-! ### The facade (42_facade.md) -/

/-- R111: PUT appends the first k = min(n, CAP - COUNT) data bytes in order and answers k, which is n exactly when
everything fitted; nothing else changes. -/
def Obligations.PutAppendsAcceptedPrefix : Prop :=
  ∀ (n : BitVec 16) (data : List Byte) (s : State), data.length = n.toNat →
    let k := min n.toNat (s.cfg.cap.toNat - s.rb.length)
    encodeWord (.put n data) = n.setWidth 32 <<< 16 ||| 0x1#32 ∧
    ∃ r : BitVec 16, r.toNat = k ∧ (r = n ↔ n.toNat ≤ s.cfg.cap.toNat - s.rb.length) ∧
      exec (.put n data) s =
        .next { s with rb := s.rb ++ data.take k, response := some ⟨.ok, r⟩ }

/-- R113: PUT_ISR is identical to PUT but for its opcode. -/
def Obligations.PutIsrActsAsPut : Prop :=
  ∀ (n : BitVec 16) (data : List Byte) (s : State), data.length = n.toNat →
    let k := min n.toNat (s.cfg.cap.toNat - s.rb.length)
    encodeWord (.putIsr n data) = n.setWidth 32 <<< 16 ||| 0x2#32 ∧
    exec (.putIsr n data) s = exec (.put n data) s ∧
    exec (.putIsr n data) s =
      .next { s with rb := s.rb ++ data.take k, response := some ⟨.ok, BitVec.ofNat 16 k⟩ }

/-- R114: RESET empties RB, forces STATE to FFB and answers the bytes discarded; nothing else changes. -/
def Obligations.ResetDiscardsAndForcesFfb : Prop :=
  encodeWord .reset = 0x00000004#32 ∧
  ∀ s : State, s.Inv → ∃ r : BitVec 16, r.toNat = s.rb.length ∧
    exec .reset s = .next { s with rb := [], state := .ffb, response := some ⟨.ok, r⟩ }

/-- R115 and R66: SET_STATE with v = 0, 1 or 2 sets STATE to FFB, FSB or WAIT (R69's numbers) and answers v; with any
other v it is rejected, STATE stays and its number is the answer. Nothing else changes. -/
def Obligations.SetStateAcceptsOrRejects : Prop :=
  ∀ (v : BitVec 16) (s : State),
    encodeWord (.setState v) = v.setWidth 32 <<< 16 ||| 0x6#32 ∧
    (v.toNat = 0 → exec (.setState v) s = .next { s with state := .ffb, response := some ⟨.ok, v⟩ }) ∧
    (v.toNat = 1 → exec (.setState v) s = .next { s with state := .fsb, response := some ⟨.ok, v⟩ }) ∧
    (v.toNat = 2 → exec (.setState v) s = .next { s with state := .wait, response := some ⟨.ok, v⟩ }) ∧
    (2 < v.toNat →
      exec (.setState v) s =
        .next { s with
          response := some ⟨.rejected, match s.state with | .ffb => 0#16 | .fsb => 1#16 | .wait => 2#16⟩ })

/-- R116: GET_STATE answers STATE, 0 in FFB, 1 in FSB and 2 in WAIT (R69's numbers), and changes nothing else. -/
def Obligations.GetStateReadsState : Prop :=
  encodeWord .getState = 0x00000005#32 ∧
  ∀ s : State,
    (s.state = .ffb → exec .getState s = .next { s with response := some ⟨.ok, 0#16⟩ }) ∧
    (s.state = .fsb → exec .getState s = .next { s with response := some ⟨.ok, 1#16⟩ }) ∧
    (s.state = .wait → exec .getState s = .next { s with response := some ⟨.ok, 2#16⟩ })

/-- Repeating GET_STATE, SET_STATE or an illegal word gives the same state and response; repeating RESET gives the
same STATE and RB and answers 0. -/
def Obligations.IdempotentCommands : Prop :=
  (∀ (i : Instr) (s : State), (i = .getState ∨ (∃ v, i = .setState v) ∨ (∃ w, i = .illegal w)) →
    ∃ t, exec i s = .next t ∧ exec i t = .next t) ∧
  (∀ s : State, ∃ t, exec .reset s = .next t ∧
    exec .reset t = .next { t with response := some ⟨.ok, 0#16⟩ })

/-- Which command writes which state: no command writes CFG or the port, only PROCESS writes the destination, only
PROCESS, RESET and SET_STATE write STATE, PUT only appends to RB, PROCESS only consumes its oldest bytes. -/
def Obligations.CommandFootprints : Prop :=
  ∀ (i : Instr) (s t : State), exec i s = .next t →
    t.cfg = s.cfg ∧ t.port = s.port ∧
    ((∀ cap base, i ≠ .process cap base) →
      (∀ a, t.dst.read a = s.dst.read a) ∧ t.destWrites = s.destWrites) ∧
    (match i with
      | .put _ data => t.state = s.state ∧ ∃ k, t.rb = s.rb ++ data.take k
      | .putIsr _ data => t.state = s.state ∧ ∃ k, t.rb = s.rb ++ data.take k
      | .process _ _ => ∃ j, t.rb = s.rb.drop j
      | .reset => t.state = .ffb ∧ t.rb = []
      | .getState => t.state = s.state ∧ t.rb = s.rb
      | .setState _ => t.rb = s.rb
      | .illegal _ => t.state = s.state ∧ t.rb = s.rb)

/-! ### The frame-sync state machine (40_frame_sync.md) -/

/-- R82: the driver ends with a return code other than InProgress, and PROCESS answers N if it is MessageCopied and
0 otherwise. -/
def Obligations.ProcessMapsReturnCode : Prop :=
  ∀ (cap : BitVec 16) (base : Nat) (s : State),
    (processCall cap base s).rc ≠ .inProgress ∧
    exec (.process cap base) s =
      .next { (processCall cap base s).m with
        response := some ⟨.ok, if (processCall cap base s).rc = .messageCopied then s.cfg.n else 0#16⟩ }

/-- The driver's bound: C0 + 1 handler invocations are enough (more change nothing), the run ends with a return code
other than InProgress, and at most C0 bytes, the oldest ones, are consumed. -/
def Obligations.DriverEndsWithinBound : Prop :=
  ∀ (cap : BitVec 16) (base fuel : Nat) (k : Call), k.m.rb.length + 1 ≤ fuel →
    runDriver cap base fuel k = runDriver cap base (k.m.rb.length + 1) k ∧
    (runDriver cap base fuel k).rc ≠ .inProgress ∧
    ∃ j, j ≤ k.m.rb.length ∧ (runDriver cap base fuel k).m.rb = k.m.rb.drop j

/-- R83, as a closed form: with `noise` bytes other than M0 at the front of RB, the scan limit stops the search after
`limit` of them if there are so many; otherwise it consumes them all, and the M0 after them if there is one. SCAN_CNT
starts at its old value under PER_COMMAND and at 0 under PER_ENTRY. -/
def Obligations.MarkerSearchClosedForm : Prop :=
  ∀ k : Call,
    let start := match k.m.cfg.scanScope with
      | .perCommand => k.scanCnt.toNat
      | .perEntry => 0
    let noise := (k.m.rb.takeWhile (· != k.m.cfg.m0)).length
    let limit := max 1 (k.m.cfg.threshold.toNat + 1 - start)
    start + k.m.rb.length < 2 ^ 17 →
      (limit ≤ noise →
        handlerFFB k =
          { m := { k.m with rb := k.m.rb.drop limit }
            scanCnt := BitVec.ofNat 17 (start + limit), rc := .brk }) ∧
      (noise < limit → noise = k.m.rb.length →
        handlerFFB k =
          { m := { k.m with rb := [] }, scanCnt := BitVec.ofNat 17 (start + noise), rc := .brk }) ∧
      (noise < limit → noise < k.m.rb.length →
        handlerFFB k =
          { m := { k.m with rb := k.m.rb.drop (noise + 1), state := .fsb }
            scanCnt := BitVec.ofNat 17 (start + noise + 1), rc := .inProgress })

/-- The scan bound of 40_frame_sync.md section 2, THRESHOLD + 1 bytes other than M0: under PER_COMMAND for a whole
PROCESS, under PER_ENTRY for every marker search, whatever SCAN_CNT held (and under either scope for one that starts
with SCAN_CNT = 0). A search on a non-empty RB consumes at least one byte. -/
def Obligations.ScanBoundThresholdPlusOne : Prop :=
  (∀ (cap : BitVec 16) (base : Nat) (s : State), s.Inv → s.cfg.scanScope = .perCommand →
    driverNoise cap base (s.rb.length + 1) { m := s, scanCnt := 0#17, rc := .inProgress }
      ≤ s.cfg.threshold.toNat + 1) ∧
  (∀ k : Call, k.m.Inv → (k.m.cfg.scanScope = .perEntry ∨ k.scanCnt = 0#17) →
    ffbNoise k ≤ k.m.cfg.threshold.toNat + 1) ∧
  (∀ k : Call, k.m.rb ≠ [] → (handlerFFB k).m.rb.length < k.m.rb.length)

/-- R85: HandlerFSB on an empty RB breaks and keeps STATE; otherwise it consumes exactly one byte and goes on, in WAIT
if the byte is M1 and in FFB if it is not. -/
def Obligations.SecondByteHandler : Prop :=
  ∀ k : Call,
    (k.m.rb = [] → handlerFSB k = { k with rc := .brk }) ∧
    (∀ b rest, k.m.rb = b :: rest →
      (b = k.m.cfg.m1 →
        handlerFSB k = { k with m := { k.m with rb := rest, state := .wait }, rc := .inProgress }) ∧
      (b ≠ k.m.cfg.m1 →
        handlerFSB k = { k with m := { k.m with rb := rest, state := .ffb }, rc := .inProgress }))

/-- The byte FSB takes is never tested again: PROCESS in FSB is PROCESS without that byte, in WAIT if it is M1, in FFB
if it is not, even when it equals M0. -/
def Obligations.SecondByteNeverReexamined : Prop :=
  ∀ (cap : BitVec 16) (base : Nat) (s : State) (b : Byte) (rest : List Byte),
    s.state = .fsb → s.rb = b :: rest →
      (b = s.cfg.m1 →
        exec (.process cap base) s = exec (.process cap base) { s with state := .wait, rb := rest }) ∧
      (b ≠ s.cfg.m1 →
        exec (.process cap base) s = exec (.process cap base) { s with state := .ffb, rb := rest })

/-- R86: in WAIT, with the destination too small or too few bytes buffered, HandlerWAIT breaks at once: PROCESS
consumes nothing, writes nothing, stays in WAIT and answers 0. -/
def Obligations.CopyNeedsRoomAndBytes : Prop :=
  ∀ (cap : BitVec 16) (base : Nat) (s : State), s.state = .wait →
    (cap.toNat < s.cfg.n.toNat ∨ s.rb.length < s.cfg.n.toNat - 2) →
      exec (.process cap base) s = .next { s with response := some ⟨.ok, 0#16⟩ }

/-- R87: in WAIT, with the precondition met, PROCESS writes M0 and M1 and then the next N - 2 bytes of RB to the
destination's bytes 0..N-1, each once and in index order, consumes those N - 2 bytes and leaves STATE = FFB, whatever
the checksum says. Every other byte of memory, CFG and the port are unchanged. -/
def Obligations.CopyWritesFrame : Prop :=
  ∀ (cap : BitVec 16) (base : Nat) (s : State), s.state = .wait →
    s.cfg.n.toNat ≤ cap.toNat → s.cfg.n.toNat - 2 ≤ s.rb.length →
      ∃ t, exec (.process cap base) s = .next t ∧ t.state = .ffb ∧
        t.rb = s.rb.drop (s.cfg.n.toNat - 2) ∧ t.cfg = s.cfg ∧ t.port = s.port ∧
        t.dst.read base = some s.cfg.m0 ∧ t.dst.read (base + 1) = some s.cfg.m1 ∧
        (∀ i, i < s.cfg.n.toNat - 2 → t.dst.read (base + 2 + i) = s.rb[i]?) ∧
        s.dst.sameOutside t.dst base s.cfg.n.toNat ∧
        t.destWrites = s.destWrites ++
          indexed (s.cfg.m0 :: s.cfg.m1 :: s.rb.take (s.cfg.n.toNat - 2))

/-- R88 and R104: PROCESS answers N exactly when the CRC's low byte over the payload read back from the destination's
bytes 2..N-2 equals the byte read back from N-1. -/
def Obligations.ChecksumOverReadBack : Prop :=
  ∀ (cap : BitVec 16) (base : Nat) (s : State), s.state = .wait →
    s.cfg.n.toNat ≤ cap.toNat → s.cfg.n.toNat - 2 ≤ s.rb.length →
      ∃ t payload chk, exec (.process cap base) s = .next t ∧
        t.dst.readBytes (base + 2) (s.cfg.n.toNat - 3) = some payload ∧
        t.dst.read (base + (s.cfg.n.toNat - 1)) = some chk ∧
        t.response = some ⟨.ok, if crcLow (crc16 payload) = chk then s.cfg.n else 0#16⟩

/-- R105: a frame is valid exactly when the low byte of the payload's CRC equals its checksum byte; the high byte
plays no part. -/
def Obligations.LowByteDecides : Prop :=
  ∀ (cap : BitVec 16) (base : Nat) (s : State) (payload rest : List Byte), s.state = .wait →
    s.cfg.n.toNat ≤ cap.toNat → payload.length = s.cfg.n.toNat - 3 →
      ∀ chk : Byte, s.rb = payload ++ chk :: rest →
        ∃ t, exec (.process cap base) s = .next t ∧
          (t.response = some ⟨.ok, s.cfg.n⟩ ↔ (crc16 payload).extractLsb' 0 8 = chk) ∧
          (t.response = some ⟨.ok, 0#16⟩ ↔ (crc16 payload).extractLsb' 0 8 ≠ chk)

/-- For a fixed payload exactly one of the 256 checksum bytes validates the frame: the consequence that 41_crc.md draws
from its rule R105 and marks as its own derivation. -/
def Obligations.OneChecksumByteValidates : Prop :=
  ∀ (cap : BitVec 16) (base : Nat) (s : State) (payload rest : List Byte), s.state = .wait →
    s.cfg.n.toNat ≤ cap.toNat → payload.length = s.cfg.n.toNat - 3 →
      ∃! chk : Byte, ∃ t,
        exec (.process cap base) { s with rb := payload ++ chk :: rest } = .next t ∧
          t.response = some ⟨.ok, s.cfg.n⟩

/-- All that PROCESS may touch: it consumes a prefix of RB, keeps CFG and the port, and writes either nothing or, once
each and in index order, bytes 0..N-1 of a destination of at least N bytes, filled with the markers and the last N - 2
bytes consumed; a non-zero answer comes only with the latter. So at most one frame is delivered. -/
def Obligations.ProcessFootprint : Prop :=
  ∀ (cap : BitVec 16) (base : Nat) (s t : State), exec (.process cap base) s = .next t →
    t.cfg = s.cfg ∧ t.port = s.port ∧
    ∃ j, j ≤ s.rb.length ∧ t.rb = s.rb.drop j ∧
      ((t.destWrites = s.destWrites ∧ (∀ a, t.dst.read a = s.dst.read a) ∧
          t.response = some ⟨.ok, 0#16⟩) ∨
       (s.cfg.n.toNat ≤ cap.toNat ∧ s.cfg.n.toNat - 2 ≤ j ∧ t.state = .ffb ∧
          (t.response = some ⟨.ok, 0#16⟩ ∨ t.response = some ⟨.ok, s.cfg.n⟩) ∧
          ∃ frame : List Byte, frame.length = s.cfg.n.toNat ∧
            frame = s.cfg.m0 :: s.cfg.m1 :: (s.rb.take j).drop (j - (s.cfg.n.toNat - 2)) ∧
            t.destWrites = s.destWrites ++ indexed frame ∧
            t.dst.readBytes base s.cfg.n.toNat = some frame ∧
            s.dst.sameOutside t.dst base s.cfg.n.toNat))

/-- With RB empty PROCESS answers 0 and changes nothing, in every STATE. -/
def Obligations.EmptyBufferProcess : Prop :=
  ∀ (cap : BitVec 16) (base : Nat) (s : State), s.rb = [] →
    exec (.process cap base) s = .next { s with response := some ⟨.ok, 0#16⟩ }

/-- R92: a frame with a wrong checksum byte is consumed all the same: PROCESS answers 0, STATE is FFB, the N - 2 bytes
after the marker are gone and are not scanned again, whatever they hold. -/
def Obligations.MismatchConsumesFrame : Prop :=
  ∀ (cap : BitVec 16) (base : Nat) (s : State) (payload rest : List Byte) (chk : Byte),
    s.state = .ffb → s.cfg.n.toNat ≤ cap.toNat → payload.length = s.cfg.n.toNat - 3 →
    chk ≠ crcLow (crc16 payload) → s.rb = s.cfg.m0 :: s.cfg.m1 :: (payload ++ chk :: rest) →
      ∃ t, exec (.process cap base) s = .next t ∧ t.response = some ⟨.ok, 0#16⟩ ∧ t.state = .ffb ∧
        t.rb = rest ∧
        t.dst.readBytes base s.cfg.n.toNat = some (s.cfg.m0 :: s.cfg.m1 :: (payload ++ [chk]))

/-! ### The CRC engine (41_crc.md) -/

/-- R102, in the arithmetic of unsigned numbers: shift left by one within 16 bits, and XOR with 0x1021 exactly when
bit 15 was set. -/
def Obligations.CrcBitArithmetic : Prop :=
  ∀ c : BitVec 16, (crcBit c).toNat =
    if 0x8000 ≤ c.toNat then ((2 * c.toNat) % 0x10000) ^^^ 0x1021 else 2 * c.toNat

/-- R100: crc16 starts from 0xFFFF and feeds the bytes in stream order, with nothing after the last. -/
def Obligations.CrcFeedsBytesInOrder : Prop :=
  crc16 [] = 0xFFFF#16 ∧ ∀ (p : List Byte) (b : Byte), crc16 (p ++ [b]) = crcByte (crc16 p) b

/-- The byte form of the CRC equals the bit-serial form, for every register value and byte. -/
def Obligations.CrcByteEqualsSerialForm : Prop :=
  ∀ (c : BitVec 16) (b : Byte), crcByte c b = crcByteSerial c b

/-- The worked examples of 41_crc.md and the CRC vectors of 95_test_vectors.md section 2 (the spec's own
derivations). -/
def Obligations.CrcWorkedExamples : Prop :=
  crcByte 0xFFFF#16 0x05#8 = 0xB155#16 ∧ crcByte 0xB155#16 0x00#8 = 0xE2FA#16 ∧
  crc16 [0x00#8] = 0xE1F0#16 ∧ crc16 [0x80#8] = 0x7078#16 ∧ crc16 [0x12#8, 0x34#8] = 0x0EC9#16 ∧
  crc16 [0x31#8, 0x32#8, 0x33#8, 0x34#8, 0x35#8, 0x36#8, 0x37#8, 0x38#8, 0x39#8] = 0x29B1#16

/-! ### Construction, reset and the invariant -/

/-- R141: after construction STATE is FFB, RB is empty, CFG holds the descriptor's values, there is no response and
every command completes. -/
def Obligations.ConstructionState : Prop :=
  ∀ (d : Descriptor) (s : State), State.construct d = some s →
    s.state = .ffb ∧ s.rb = [] ∧ s.response = none ∧
    s.cfg.cap.toNat = d.cap ∧ s.cfg.n.toNat = d.n ∧ s.cfg.m0.toNat = d.m0 ∧ s.cfg.m1.toNat = d.m1 ∧
    s.cfg.threshold.toNat = d.threshold ∧ s.cfg.scanScope = d.scanScope ∧
    ∀ i : Instr, ∃ t, exec i s = .next t

/-- R7: a configuration that breaks a constraint of rule R4 or R5 names no instance, every other one names an instance,
which meets the invariant; and an illegal configuration has no state and no step, since every state's configuration
meets the constraints. -/
def Obligations.IllegalConfigurationNamesNoInstance : Prop :=
  ∀ d : Descriptor,
    (State.construct d = none ↔
      (d.cap = 0 ∨ 65535 < d.cap ∨ d.n < 3 ∨ 65535 < d.n ∨ d.cap < d.n - 2 ∨ 0xFF < d.m0 ∨ 0xFF < d.m1 ∨
        65535 < d.threshold ∨ d.markerSize ≠ 2 ∨ d.chkSize ≠ 1)) ∧
    (∀ s, State.construct d = some s → s.Inv) ∧
    ∀ s : State, 1 ≤ s.cfg.cap.toNat ∧ 3 ≤ s.cfg.n.toNat ∧ s.cfg.n.toNat - 2 ≤ s.cfg.cap.toNat

/-- The reset state meets the invariant. -/
def Obligations.ResetSatisfiesInvariant : Prop := State.reset.Inv

/-- Every step keeps CFG, which is legal by its type, and the invariant: RB stays within its capacity, and the
destination memory stays in canonical form. -/
def Obligations.StepKeepsInvariant : Prop :=
  ∀ s t : State, s.Inv → step s = .next t → t.Inv ∧ t.cfg = s.cfg

/-- Construction, any sequence of commands and then RESET is equal in STATE, RB and CFG to a fresh construction. -/
def Obligations.ResetEqualsFreshConstruction : Prop :=
  ∀ (d : Descriptor) (fresh t : State) (commands : List Transaction) (k : Nat),
    State.construct d = some fresh → Sys2Proof.core.run k (fresh.issue commands) = .next t →
      ∃ u : State, exec .reset t = .next u ∧ u.state = fresh.state ∧ u.rb = fresh.rb ∧ u.cfg = fresh.cfg

/-! ### Whole-machine claims -/

/-- A valid frame after at most THRESHOLD bytes of noise is recovered by one PROCESS, from any aligned state and
whatever follows it: the answer is N, the destination holds the frame, exactly the noise and the frame are consumed. -/
def Obligations.FrameAfterNoiseRecovered : Prop :=
  ∀ (cap : BitVec 16) (base : Nat) (s : State) (noise payload rest : List Byte), s.state = .ffb →
    s.cfg.n.toNat ≤ cap.toNat → (∀ b ∈ noise, b ≠ s.cfg.m0) → noise.length ≤ s.cfg.threshold.toNat →
    payload.length = s.cfg.n.toNat - 3 → s.rb = noise ++ frameOf s.cfg payload ++ rest →
      ∃ t, exec (.process cap base) s = .next t ∧ t.response = some ⟨.ok, s.cfg.n⟩ ∧ t.state = .ffb ∧
        t.rb = rest ∧ t.cfg = s.cfg ∧ t.port = s.port ∧
        t.dst.readBytes base s.cfg.n.toNat = some (frameOf s.cfg payload) ∧
        s.dst.sameOutside t.dst base s.cfg.n.toNat ∧
        t.destWrites = s.destWrites ++ indexed (frameOf s.cfg payload)

/-- More than THRESHOLD bytes of noise: one PROCESS consumes exactly THRESHOLD + 1 of them, answers 0 and changes
nothing else, whatever follows. -/
def Obligations.LongNoiseTakesThresholdPlusOne : Prop :=
  ∀ (cap : BitVec 16) (base : Nat) (s : State) (noise rest : List Byte), s.state = .ffb →
    (∀ b ∈ noise, b ≠ s.cfg.m0) → s.cfg.threshold.toNat < noise.length → s.rb = noise ++ rest →
      exec (.process cap base) s =
        .next { s with
          rb := noise.drop (s.cfg.threshold.toNat + 1) ++ rest, response := some ⟨.ok, 0#16⟩ }

/-- A frame met with too small a destination: PROCESS answers 0, consumes only the marker, writes nothing and waits
in WAIT; a later PROCESS with room, to any buffer, delivers the whole frame. (The bytes read are those this PROCESS
wrote, so nothing rests on log 8.) -/
def Obligations.UndersizedDestinationKeepsFrame : Prop :=
  ∀ (cap cap' : BitVec 16) (base base' : Nat) (s : State) (payload rest : List Byte),
    s.state = .ffb → cap.toNat < s.cfg.n.toNat → s.cfg.n.toNat ≤ cap'.toNat →
    payload.length = s.cfg.n.toNat - 3 → s.rb = frameOf s.cfg payload ++ rest →
      ∃ t u, exec (.process cap base) s = .next t ∧
        t = { s with state := .wait, rb := (frameOf s.cfg payload).drop 2 ++ rest
                     response := some ⟨.ok, 0#16⟩ } ∧
        exec (.process cap' base') t = .next u ∧ u.response = some ⟨.ok, s.cfg.n⟩ ∧ u.state = .ffb ∧
        u.rb = rest ∧ u.dst.readBytes base' s.cfg.n.toNat = some (frameOf s.cfg payload)

/-- However a valid frame is cut into non-empty pieces, each no longer than CAP, each one PUT and followed by a PROCESS,
the run ends with the same answer N, the same destination bytes and the same state: one bulk write and single-byte
writes agree. The commands stand in the model's port (log 2); that the other destination bytes are unchanged at the end
rests on the host writing none of them meanwhile (log 8). -/
def Obligations.ChunkedDeliveryEqualsBulk : Prop :=
  ∀ (cap : BitVec 16) (base : Nat) (s : State) (payload : List Byte) (chunks : List (List Byte))
    (later : List Transaction), s.state = .ffb → s.rb = [] → s.cfg.n.toNat ≤ cap.toNat →
    payload.length = s.cfg.n.toNat - 3 →
    (∀ c ∈ chunks, c ≠ [] ∧ c.length ≤ s.cfg.cap.toNat) → chunks.flatten = frameOf s.cfg payload →
    s.port = (chunks.flatMap fun c =>
      [encode (.put (BitVec.ofNat 16 c.length) c), encode (.process cap base)]) ++ later →
      ∃ t : State, Sys2Proof.core.run (2 * chunks.length) s = .next t ∧
        t.response = some ⟨.ok, s.cfg.n⟩ ∧ t.state = .ffb ∧ t.rb = [] ∧ t.cfg = s.cfg ∧ t.port = later ∧
        t.dst.readBytes base s.cfg.n.toNat = some (frameOf s.cfg payload) ∧
        s.dst.sameOutside t.dst base s.cfg.n.toNat

/-- There is no hidden state but STATE, RB and CFG: two engines equal in these and in the commands issued show the
same run, every response, every destination write and the final STATE and RB (R155), whatever else they hold. The port
of commands and the record of destination writes are the model's own (log 2, log 4). -/
def Obligations.RunShowsOnlyVisibleState : Prop :=
  ∀ (k : Nat) (s s' : State), s.cfg = s'.cfg → s.state = s'.state → s.rb = s'.rb → s.port = s'.port →
    observe k s = observe k s'

/-- No stall in WAIT: because N - 2 ≤ CAP, some PUT that is accepted whole lets the next PROCESS with room copy a
frame and leave WAIT. -/
def Obligations.NoStallInWait : Prop :=
  ∀ (cap : BitVec 16) (base : Nat) (s : State), s.Inv → s.state = .wait → s.cfg.n.toNat ≤ cap.toNat →
    ∃ (n : BitVec 16) (data : List Byte) (t u : State), data.length = n.toNat ∧
      exec (.put n data) s = .next t ∧ t.response = some ⟨.ok, n⟩ ∧
      exec (.process cap base) t = .next u ∧ u.state = .ffb ∧
      u.rb.length = t.rb.length - (s.cfg.n.toNat - 2)
end

