-- ==== Sys2Proof/Laws/Decode.lean ====
section
/-! SUPPORT. The command word's fields as numbers, the selection of a command in terms of them, and what the payload
readers answer. -/

namespace Sys2Proof

/-! ### Fields as numbers -/

theorem opField_toNat (w : CmdWord) : (opField w).toNat = w.toNat % 16 := by
  simp [opField, BitVec.extractLsb'_toNat]

theorem rsvdField_toNat (w : CmdWord) : (rsvdField w).toNat = w.toNat / 16 % 4096 := by
  simp [rsvdField, BitVec.extractLsb'_toNat, Nat.shiftRight_eq_div_pow]

theorem argField_toNat (w : CmdWord) : (argField w).toNat = w.toNat / 65536 % 65536 := by
  simp [argField, BitVec.extractLsb'_toNat, Nat.shiftRight_eq_div_pow]

/-- A word built from its fields, as a number. -/
theorem cmdWord_toNat (arg : BitVec 16) (op : BitVec 4) :
    (cmdWord arg op).toNat = arg.toNat * 65536 + op.toNat := by
  have h : (cmdWord arg op).toNat = ((arg ++ 0#12 : BitVec 28) ++ op).toNat := rfl
  rw [h, BitVec.toNat_append, BitVec.toNat_append, Nat.shiftLeft_eq, Nat.shiftLeft_eq,
    ← Nat.shiftLeft_eq, ← Nat.shiftLeft_add_eq_or_of_lt op.isLt, Nat.shiftLeft_eq]
  simp
  omega

/-! ### Selecting the command -/

/-- A row whose mask is the low half-word fits by the low half-word. -/
theorem fits_low (op : Op) (w v : CmdWord) :
    (OpRow.mk op 0x0000FFFF#32 v).fits w = decide (w.toNat % 65536 = v.toNat) := by
  have h : w &&& 0x0000FFFF#32 = v ↔ w.toNat % 65536 = v.toNat := by
    have hm : (0x0000FFFF#32).toNat = 2 ^ 16 - 1 := rfl
    rw [← BitVec.toNat_inj, BitVec.toNat_and, hm, Nat.and_two_pow_sub_one_eq_mod]
  rw [Bool.eq_iff_iff]
  simp [OpRow.fits, h]

/-- A row whose mask is the whole word fits its one word. -/
theorem fits_whole (op : Op) (w v : CmdWord) :
    (OpRow.mk op 0xFFFFFFFF#32 v).fits w = decide (w.toNat = v.toNat) := by
  have h : w &&& 0xFFFFFFFF#32 = v ↔ w.toNat = v.toNat := by
    have hm : (0xFFFFFFFF#32).toNat = 2 ^ 32 - 1 := rfl
    rw [← BitVec.toNat_inj, BitVec.toNat_and, hm, Nat.and_two_pow_sub_one_eq_mod, Nat.mod_eq_of_lt w.isLt]
  rw [Bool.eq_iff_iff]
  simp [OpRow.fits, h]

/-- The command a word selects, read off the word as a number. -/
theorem classify_eq (w : CmdWord) :
    classify w =
      if w.toNat % 65536 = 1 then .put
      else if w.toNat % 65536 = 2 then .putIsr
      else if w.toNat % 65536 = 3 then .process
      else if w.toNat = 4 then .reset
      else if w.toNat = 5 then .getState
      else if w.toNat % 65536 = 6 then .setState
      else .illegal := by
  simp only [classify, opcodeTable, List.find?, fits_low, fits_whole]
  by_cases c1 : w.toNat % 65536 = 1
  · simp [c1]
  by_cases c2 : w.toNat % 65536 = 2
  · simp [c2]
  by_cases c3 : w.toNat % 65536 = 3
  · simp [c3]
  by_cases c4 : w.toNat = 4
  · simp [c4]
  by_cases c5 : w.toNat = 5
  · simp [c5]
  by_cases c6 : w.toNat % 65536 = 6 <;> simp [c1, c2, c3, c4, c5, c6]

/-- The words rule R65 calls illegal, as numbers. -/
theorem illegalWord_iff (w : CmdWord) :
    illegalWord w = true ↔
      (w.toNat % 16 = 0 ∨ 7 ≤ w.toNat % 16) ∨ w.toNat / 16 % 4096 ≠ 0 ∨
        ((w.toNat % 16 = 4 ∨ w.toNat % 16 = 5) ∧ w.toNat / 65536 % 65536 ≠ 0) := by
  have e4 : ∀ v : BitVec 4, opField w = v ↔ w.toNat % 16 = v.toNat := fun v => by
    rw [← BitVec.toNat_inj, opField_toNat]
  have e12 : rsvdField w = 0#12 ↔ w.toNat / 16 % 4096 = 0 := by
    rw [← BitVec.toNat_inj, rsvdField_toNat]; rfl
  have e16 : argField w = 0#16 ↔ w.toNat / 65536 % 65536 = 0 := by
    rw [← BitVec.toNat_inj, argField_toNat]; rfl
  have e7 : 0x7#4 ≤ opField w ↔ 7 ≤ w.toNat % 16 := by
    rw [BitVec.le_def, opField_toNat]; rfl
  simp [illegalWord, e4, e12, e16, e7, or_assoc]

/-- A word selects no command exactly when rule R65 calls it illegal. -/
theorem classify_eq_illegal_iff (w : CmdWord) : classify w = .illegal ↔ illegalWord w = true := by
  have := w.isLt
  rw [classify_eq, illegalWord_iff]
  split_ifs <;> simp <;> omega

/-! ### The payload -/

theorem hasCount_iff (data : List Byte) (n : Nat) : hasCount data n = true ↔ data.length = n := by
  induction data generalizing n with
  | nil => cases n <;> simp [hasCount]
  | cons b data ih => cases n <;> simp [hasCount, ih]

/-- The payload is `n` data bytes exactly when it is a list of that length. -/
theorem dataOf_eq_ok {p : Payload} {n : Nat} {data : List Byte} :
    dataOf p n = .ok data ↔ p = .bytes data ∧ data.length = n := by
  cases p with
  | dest base => simp [dataOf]
  | bytes d =>
    by_cases h : hasCount d n = true
    · have := (hasCount_iff d n).1 h
      simp only [dataOf, h, if_true, Except.ok.injEq, Payload.bytes.injEq]
      constructor
      · rintro rfl; exact ⟨rfl, this⟩
      · exact fun h => h.1
    · have hl := fun e => h ((hasCount_iff d n).2 e)
      simp only [dataOf, h, Payload.bytes.injEq]
      constructor
      · intro h; cases h
      · rintro ⟨rfl, e⟩; exact absurd e hl

/-- The payload is a destination exactly when it is given as one. -/
theorem destOf_eq_ok {p : Payload} {base : Nat} : destOf p = .ok base ↔ p = .dest base := by
  cases p <;> simp [destOf]

/-! ### The decoder -/

theorem except_map_eq_ok {α β : Type} {x : Except DecodeError α} {f : α → β} {y : β} :
    x.map f = .ok y ↔ ∃ a, x = .ok a ∧ f a = y := by
  cases x <;> simp [Except.map]

/-- What the decoder answers, command by command. -/
theorem decode_eq_ok {w : CmdWord} {p : Payload} {i : Instr} :
    decode ⟨w, p⟩ = .ok i ↔
      match classify w with
      | .put => ∃ data, p = .bytes data ∧ data.length = (argField w).toNat ∧ i = .put (argField w) data
      | .putIsr => ∃ data, p = .bytes data ∧ data.length = (argField w).toNat ∧ i = .putIsr (argField w) data
      | .process => ∃ base, p = .dest base ∧ i = .process (argField w) base
      | .reset => p = .bytes [] ∧ i = .reset
      | .getState => p = .bytes [] ∧ i = .getState
      | .setState => p = .bytes [] ∧ i = .setState (argField w)
      | .illegal => p = .bytes [] ∧ i = .illegal w := by
  unfold decode
  cases classify w <;>
    simp only [except_map_eq_ok, dataOf_eq_ok, destOf_eq_ok, List.length_eq_zero_iff] <;>
    constructor <;> simp +contextual [eq_comm]

/-- The ARG field of a word built from its fields. -/
@[simp] theorem argField_cmdWord (arg : BitVec 16) (op : BitVec 4) : argField (cmdWord arg op) = arg := by
  apply BitVec.eq_of_toNat_eq
  rw [argField_toNat, cmdWord_toNat]
  have := arg.isLt
  have := op.isLt
  omega

/-- A word whose low half is an OP with RSVD = 0 is built from its fields. -/
theorem cmdWord_argField {w : CmdWord} {op : BitVec 4} (h : w.toNat % 65536 = op.toNat) :
    cmdWord (argField w) op = w := by
  apply BitVec.eq_of_toNat_eq
  rw [cmdWord_toNat, argField_toNat]
  have := w.isLt
  omega

end Sys2Proof
end

