-- ==== Sys2Proof/Laws/Memory.lean ====
section
/-! SUPPORT. The laws of the destination memory: read after write, and that a write keeps the canonical form. -/

namespace Sys2Proof.Machine

open Memory

@[simp] theorem Memory.read_nil (x : Nat) : Memory.read [] x = none := rfl

/-- A byte written is the byte read. -/
@[simp] theorem Memory.read_write_same (m : Memory) (x : Nat) (v : Byte) : (m.write x v).read x = some v := by
  induction m with
  | nil => simp [write, read]
  | cons c m ih =>
    obtain ⟨a, b⟩ := c
    by_cases h : x < a
    · simp [write, read, h]
    · by_cases h' : x = a
      · simp [write, read, h']
      · simp [write, read, h, h', ih]

/-- A write leaves every other address alone. -/
theorem Memory.read_write_other (m : Memory) {x y : Nat} (v : Byte) (h : y ≠ x) :
    (m.write x v).read y = m.read y := by
  induction m with
  | nil => simp [write, read, h]
  | cons c m ih =>
    obtain ⟨a, b⟩ := c
    by_cases h₁ : x < a
    · simp [write, read, h₁, h]
    · by_cases h₂ : x = a
      · subst h₂; simp [write, read, h]
      · simp [write, read, h₁, h₂, ih]

/-- Every address a write leaves listed is the one written or was listed before. -/
theorem Memory.mem_write {m : Memory} {x : Nat} {v : Byte} {c : Host.Cell} (h : c ∈ m.write x v) :
    c.1 = x ∨ c ∈ m := by
  induction m with
  | nil => simp [write] at h; simp [h]
  | cons d m ih =>
    obtain ⟨a, b⟩ := d
    by_cases h₁ : x < a
    · simp [write, h₁] at h
      rcases h with rfl | rfl | h
      · simp
      · simp
      · simp [h]
    · by_cases h₂ : x = a
      · simp [write, h₂] at h
        rcases h with rfl | h
        · simp [h₂]
        · simp [h]
      · simp [write, h₁, h₂] at h
        rcases h with rfl | h
        · simp
        · rcases ih h with h | h
          · exact .inl h
          · simp [h]

/-- A write keeps the canonical form. -/
theorem Memory.wf_write {m : Memory} (h : m.wf) (x : Nat) (v : Byte) : (m.write x v).wf := by
  induction m with
  | nil => simp [write, wf]
  | cons c m ih =>
    obtain ⟨a, b⟩ := c
    simp only [wf, List.pairwise_cons] at h ih ⊢
    by_cases h₁ : x < a
    · simp only [write, h₁, if_true, List.pairwise_cons]
      refine ⟨?_, h⟩
      intro d hd
      rcases List.mem_cons.1 hd with rfl | hd
      · exact h₁
      · exact Nat.lt_trans h₁ (h.1 d hd)
    · by_cases h₂ : x = a
      · simp only [write, h₂, if_true, if_false, Nat.lt_irrefl, List.pairwise_cons]
        exact h
      · simp only [write, h₁, h₂, if_false, List.pairwise_cons]
        refine ⟨?_, ih h.2⟩
        intro d hd
        rcases mem_write hd with hd | hd
        · show a < d.1
          omega
        · exact h.1 d hd

/-- `readBytes` of no bytes. -/
@[simp] theorem Memory.readBytes_zero (m : Memory) (a : Nat) : m.readBytes a 0 = some [] := by
  simp [readBytes]

/-- `readBytes` answers `bytes` exactly when each address reads as its byte. -/
theorem Memory.readBytes_eq_some {m : Memory} {bytes : List Byte} {a n : Nat} :
    m.readBytes a n = some bytes ↔
      bytes.length = n ∧ ∀ i, (h : i < bytes.length) → m.read (a + i) = some bytes[i] := by
  induction n generalizing a bytes with
  | zero =>
    cases bytes <;> simp
  | succ n ih =>
    constructor
    · intro h
      simp only [readBytes] at h
      split at h
      · rename_i b bs hb hbs
        obtain rfl := Option.some.inj h
        obtain ⟨hl, hr⟩ := ih.1 hbs
        refine ⟨by simp [hl], ?_⟩
        intro i hi
        cases i with
        | zero => simpa using hb
        | succ i =>
          have := hr i (by simpa using hi)
          rw [show a + (i + 1) = a + 1 + i by omega]
          simpa using this
      · cases h
    · rintro ⟨hl, hr⟩
      cases bytes with
      | nil => simp at hl
      | cons b bs =>
        have hb : m.read a = some b := hr 0 (by simp)
        have hbs : m.readBytes (a + 1) n = some bs := by
          refine ih.2 ⟨by simpa using hl, ?_⟩
          intro i hi
          have := hr (i + 1) (by simpa using hi)
          rw [show a + (i + 1) = a + 1 + i by omega] at this
          simpa using this
        simp [readBytes, hb, hbs]

end Sys2Proof.Machine
end

