-- ==== Sys2Proof/Laws/State.lean ====
section
/-! SUPPORT. What each update of the state does to each field. -/

namespace Sys2Proof

/-! The constraints every configuration meets by its type (00_scope.md rule R4) -/

theorem Cfg.one_le_cap (c : Cfg) : 1 ≤ c.cap.toNat := c.legal.1
theorem Cfg.three_le_n (c : Cfg) : 3 ≤ c.n.toNat := c.legal.2.1
theorem Cfg.n_sub_two_le_cap (c : Cfg) : c.n.toNat - 2 ≤ c.cap.toNat := c.legal.2.2

end Sys2Proof

namespace Sys2Proof.Machine

variable (s : State)

/-! `destWrite` -/
section
variable (base i : Nat) (v : Byte)
@[simp] theorem State.destWrite_cfg : (s.destWrite base i v).cfg = s.cfg := rfl
@[simp] theorem State.destWrite_state : (s.destWrite base i v).state = s.state := rfl
@[simp] theorem State.destWrite_rb : (s.destWrite base i v).rb = s.rb := rfl
@[simp] theorem State.destWrite_response : (s.destWrite base i v).response = s.response := rfl
@[simp] theorem State.destWrite_dst : (s.destWrite base i v).dst = s.dst.write (base + i) v := rfl
@[simp] theorem State.destWrite_destWrites :
    (s.destWrite base i v).destWrites = s.destWrites ++ [(i, v)] := rfl
@[simp] theorem State.destWrite_port : (s.destWrite base i v).port = s.port := rfl
end

/-! `rbPush` and `rbClear` -/
section
variable (b : Byte)
@[simp] theorem State.rbPush_cfg : (s.rbPush b).cfg = s.cfg := rfl
@[simp] theorem State.rbPush_state : (s.rbPush b).state = s.state := rfl
@[simp] theorem State.rbPush_rb : (s.rbPush b).rb = s.rb ++ [b] := rfl
@[simp] theorem State.rbPush_response : (s.rbPush b).response = s.response := rfl
@[simp] theorem State.rbPush_dst : (s.rbPush b).dst = s.dst := rfl
@[simp] theorem State.rbPush_destWrites : (s.rbPush b).destWrites = s.destWrites := rfl
@[simp] theorem State.rbPush_port : (s.rbPush b).port = s.port := rfl
@[simp] theorem State.rbClear_cfg : s.rbClear.cfg = s.cfg := rfl
@[simp] theorem State.rbClear_state : s.rbClear.state = s.state := rfl
@[simp] theorem State.rbClear_rb : s.rbClear.rb = [] := rfl
@[simp] theorem State.rbClear_response : s.rbClear.response = s.response := rfl
@[simp] theorem State.rbClear_dst : s.rbClear.dst = s.dst := rfl
@[simp] theorem State.rbClear_destWrites : s.rbClear.destWrites = s.destWrites := rfl
@[simp] theorem State.rbClear_port : s.rbClear.port = s.port := rfl
end

/-! `respond` -/
section
variable (status : Status) (result : BitVec 16)
@[simp] theorem State.respond_cfg : (s.respond status result).cfg = s.cfg := rfl
@[simp] theorem State.respond_state : (s.respond status result).state = s.state := rfl
@[simp] theorem State.respond_rb : (s.respond status result).rb = s.rb := rfl
@[simp] theorem State.respond_response :
    (s.respond status result).response = some ⟨status, result⟩ := rfl
@[simp] theorem State.respond_dst : (s.respond status result).dst = s.dst := rfl
@[simp] theorem State.respond_destWrites : (s.respond status result).destWrites = s.destWrites := rfl
@[simp] theorem State.respond_port : (s.respond status result).port = s.port := rfl
end

/-! `accept`, `issue` and `issueNext` -/
section
variable (later : List Transaction) (t : Transaction)
@[simp] theorem State.accept_cfg : (s.accept later).cfg = s.cfg := rfl
@[simp] theorem State.accept_state : (s.accept later).state = s.state := rfl
@[simp] theorem State.accept_rb : (s.accept later).rb = s.rb := rfl
@[simp] theorem State.accept_response : (s.accept later).response = s.response := rfl
@[simp] theorem State.accept_dst : (s.accept later).dst = s.dst := rfl
@[simp] theorem State.accept_destWrites : (s.accept later).destWrites = [] := rfl
@[simp] theorem State.accept_port : (s.accept later).port = later := rfl
@[simp] theorem State.issue_cfg : (s.issue later).cfg = s.cfg := rfl
@[simp] theorem State.issue_state : (s.issue later).state = s.state := rfl
@[simp] theorem State.issue_rb : (s.issue later).rb = s.rb := rfl
@[simp] theorem State.issue_response : (s.issue later).response = s.response := rfl
@[simp] theorem State.issue_dst : (s.issue later).dst = s.dst := rfl
@[simp] theorem State.issue_destWrites : (s.issue later).destWrites = s.destWrites := rfl
@[simp] theorem State.issue_port : (s.issue later).port = s.port ++ later := rfl
@[simp] theorem State.issueNext_cfg : (s.issueNext t).cfg = s.cfg := rfl
@[simp] theorem State.issueNext_state : (s.issueNext t).state = s.state := rfl
@[simp] theorem State.issueNext_rb : (s.issueNext t).rb = s.rb := rfl
@[simp] theorem State.issueNext_response : (s.issueNext t).response = s.response := rfl
@[simp] theorem State.issueNext_dst : (s.issueNext t).dst = s.dst := rfl
@[simp] theorem State.issueNext_destWrites : (s.issueNext t).destWrites = s.destWrites := rfl
@[simp] theorem State.issueNext_port : (s.issueNext t).port = t :: s.port := rfl
end

/-! `ofCfg`: the construction state -/
section
variable (c : Cfg)
@[simp] theorem State.ofCfg_cfg : (State.ofCfg c).cfg = c := rfl
@[simp] theorem State.ofCfg_state : (State.ofCfg c).state = .ffb := rfl
@[simp] theorem State.ofCfg_rb : (State.ofCfg c).rb = [] := rfl
@[simp] theorem State.ofCfg_response : (State.ofCfg c).response = none := rfl
@[simp] theorem State.ofCfg_dst : (State.ofCfg c).dst = [] := rfl
@[simp] theorem State.ofCfg_destWrites : (State.ofCfg c).destWrites = [] := rfl
@[simp] theorem State.ofCfg_port : (State.ofCfg c).port = [] := rfl
end

end Sys2Proof.Machine
end

