-- ==== Sys2Proof/Laws/Ops.lean ====
section
/-! SUPPORT. One lemma for each shared operation, saying all it does: writing into the ring buffer, copying bytes,
copying a frame, and the checksum test after a copy. -/

namespace Sys2Proof.Machine

/-! ### The ring buffer's write contract -/

/-- Pushing bytes one after another appends them in order and changes nothing else. -/
theorem foldl_rbPush (bytes : List Byte) (s : State) :
    bytes.foldl State.rbPush s = { s with rb := s.rb ++ bytes } := by
  induction bytes generalizing s with
  | nil => simp
  | cons b bytes ih => simp [ih, State.rbPush]

/-- A write appends the accepted prefix and changes nothing else. -/
theorem State.rbWrite_eq (s : State) (src : List Byte) (n : Nat) :
    s.rbWrite src n = { s with rb := s.rb ++ src.take (s.rbAccepts n) } :=
  foldl_rbPush _ _

/-- A write accepts no more than the free space. -/
theorem State.rbAccepts_le (s : State) (n : Nat) : s.rbAccepts n ≤ s.cfg.cap.toNat - s.rb.length :=
  Nat.min_le_right _ _

/-! ### Writing bytes one after another into the destination -/

/-- Bytes written from an address on. -/
def Memory.writeSeq (m : Memory) (a : Nat) : List Byte → Memory
  | [] => m
  | b :: bytes => Memory.writeSeq (m.write a b) (a + 1) bytes

@[simp] theorem Memory.writeSeq_nil (m : Memory) (a : Nat) : m.writeSeq a [] = m := rfl

@[simp] theorem Memory.writeSeq_cons (m : Memory) (a : Nat) (b : Byte) (bytes : List Byte) :
    m.writeSeq a (b :: bytes) = (m.write a b).writeSeq (a + 1) bytes := rfl

/-- Outside the bytes written, every address reads as before. -/
theorem Memory.read_writeSeq_outside (bytes : List Byte) (m : Memory) (a x : Nat)
    (h : x < a ∨ a + bytes.length ≤ x) : (m.writeSeq a bytes).read x = m.read x := by
  induction bytes generalizing m a with
  | nil => rfl
  | cons b bytes ih =>
    simp only [List.length_cons] at h
    rw [writeSeq_cons, ih _ _ (by omega), read_write_other _ _ (by omega)]

/-- Each byte written is the byte read. -/
theorem Memory.read_writeSeq_inside (bytes : List Byte) (m : Memory) (a i : Nat) (h : i < bytes.length) :
    (m.writeSeq a bytes).read (a + i) = some bytes[i] := by
  induction bytes generalizing m a i with
  | nil => simp at h
  | cons b bytes ih =>
    cases i with
    | zero =>
      rw [writeSeq_cons, Memory.read_writeSeq_outside _ _ _ _ (by omega)]
      simp
    | succ i =>
      rw [writeSeq_cons, show a + (i + 1) = a + 1 + i by omega, ih _ _ _ (by simpa using h)]
      simp

/-- Bytes written keep the canonical form. -/
theorem Memory.wf_writeSeq (bytes : List Byte) {m : Memory} (h : m.wf) (a : Nat) :
    (m.writeSeq a bytes).wf := by
  induction bytes generalizing m a with
  | nil => exact h
  | cons b bytes ih => exact ih (wf_write h a b) (a + 1)

/-- What was written is read back. -/
theorem Memory.readBytes_writeSeq (m : Memory) (a : Nat) (bytes : List Byte) :
    (m.writeSeq a bytes).readBytes a bytes.length = some bytes :=
  readBytes_eq_some.2 ⟨rfl, fun _ h => read_writeSeq_inside _ _ _ _ h⟩

/-! ### The copier -/

/-- The copy's loop moves `count` bytes, or all there are, from RB to the destination in order. -/
theorem copyBytes_eq (base count i : Nat) (s : State) :
    copyBytes base count i s =
      { s with
        rb := s.rb.drop count
        dst := s.dst.writeSeq (base + i) (s.rb.take count)
        destWrites := s.destWrites ++ (List.range' i (s.rb.take count).length).zip (s.rb.take count) } := by
  induction count generalizing i s with
  | zero => simp [copyBytes]
  | succ count ih =>
    cases hrb : s.rb with
    | nil => simp [copyBytes, State.rbPop, hrb]; rw [← hrb]
    | cons b rest =>
      simp [copyBytes, State.rbPop, hrb, ih, State.destWrite, List.range'_succ, Nat.add_assoc]

/-- The frame a copy writes: the configured marker bytes, then the next N - 2 bytes of RB. -/
def copiedFrame (s : State) : List Byte := s.cfg.m0 :: s.cfg.m1 :: s.rb.take (s.cfg.n.toNat - 2)

/-- The copy writes the frame from index 0 on, consumes N - 2 bytes and leaves STATE = FFB. -/
theorem copyFrame_eq (base : Nat) (s : State) :
    copyFrame base s =
      { s with
        state := .ffb
        rb := s.rb.drop (s.cfg.n.toNat - 2)
        dst := s.dst.writeSeq base (copiedFrame s)
        destWrites := s.destWrites ++ indexed (copiedFrame s) } := by
  simp [copyFrame, copyBytes_eq, markerSize, copiedFrame, indexed, State.destWrite, Nat.add_assoc,
    List.range_eq_range', List.range'_succ]

/-- A copy keeps the destination memory's canonical form. -/
theorem wf_copyFrame (base : Nat) {s : State} (h : s.dst.wf) : (copyFrame base s).dst.wf := by
  rw [copyFrame_eq]
  exact Memory.wf_writeSeq _ h _

/-- The destination memory is in canonical form after construction. -/
theorem wf_ofCfg (c : Cfg) : (State.ofCfg c).dst.wf := List.Pairwise.nil

/-- A copied frame has N bytes when RB holds enough. -/
theorem length_copiedFrame {s : State} (hc : s.cfg.n.toNat - 2 ≤ s.rb.length) :
    (copiedFrame s).length = s.cfg.n.toNat := by
  have := s.cfg.three_le_n
  simp [copiedFrame, List.length_take]; omega

/-- After a copy the checksum test compares the CRC's low byte over the payload with the byte after it. -/
theorem checksumMatches_copyFrame (base : Nat) {s : State}
    (hc : s.cfg.n.toNat - 2 ≤ s.rb.length) :
    checksumMatches base (copyFrame base s) =
      (crcLow (crc16 (s.rb.take (s.cfg.n.toNat - 3))) ==
        s.rb[s.cfg.n.toNat - 3]'(by have := s.cfg.three_le_n; omega)) := by
  have hn := s.cfg.three_le_n
  have hlen := length_copiedFrame hc
  have hread : ∀ i, (h : i < s.cfg.n.toNat - 2) →
      (copyFrame base s).dst.read (base + 2 + i) = some s.rb[i] := by
    intro i hi
    have := Memory.read_writeSeq_inside (copiedFrame s) s.dst base (i + 2) (by omega)
    rw [show base + 2 + i = base + (i + 2) by omega, copyFrame_eq]
    simpa [copiedFrame] using this
  have hpay : (copyFrame base s).dst.readBytes (base + 2) (s.cfg.n.toNat - 3) =
      some (s.rb.take (s.cfg.n.toNat - 3)) := by
    refine Memory.readBytes_eq_some.2 ⟨by simp; omega, ?_⟩
    intro i hi
    simp only [List.length_take] at hi
    rw [hread i (by omega)]
    simp
  have hchk : (copyFrame base s).dst.read (base + (s.cfg.n.toNat - 1)) = some s.rb[s.cfg.n.toNat - 3] := by
    have := hread (s.cfg.n.toNat - 3) (by omega)
    rwa [show base + 2 + (s.cfg.n.toNat - 3) = base + (s.cfg.n.toNat - 1) by omega] at this
  have hcfg : (copyFrame base s).cfg = s.cfg := by rw [copyFrame_eq]
  unfold checksumMatches
  rw [hcfg]
  simp only [markerSize, chkSize, Nat.sub_sub]
  rw [hpay, hchk]

end Sys2Proof.Machine
end

