-- ==== Sys2Proof/Laws/FrameSync.lean ====
section
/-! SUPPORT. What the handlers, the driver and PROCESS can do, said once: inversion lemmas that later proofs cite
instead of unfolding the frame-sync state machine. -/

namespace Sys2Proof.Machine

/-! ### The marker search -/

/-- The marker search consumes a prefix of RB, and at least one byte when it finds M0. -/
theorem scanMarker_rest (m0 : Byte) (th : BitVec 16) (cnt : BitVec 17) (rb : List Byte) :
    ∃ j, j ≤ rb.length ∧ (scanMarker m0 th cnt rb).rest = rb.drop j ∧
      ((scanMarker m0 th cnt rb).found = true → 1 ≤ j) := by
  induction rb generalizing cnt with
  | nil => exact ⟨0, by simp [scanMarker]⟩
  | cons b rest ih =>
    unfold scanMarker
    split
    · exact ⟨1, by simp⟩
    · split
      · exact ⟨1, by simp⟩
      · obtain ⟨j, hj, hr, -⟩ := ih (cnt + 1#17)
        exact ⟨j + 1, by simpa using hj, by simpa using hr, fun _ => by omega⟩

/-- Bytes other than M0 that do not exhaust the scan limit are counted and passed over. -/
theorem scanMarker_noise (m0 : Byte) (th : BitVec 16) (cnt : BitVec 17) (noise tail : List Byte)
    (hn : ∀ b ∈ noise, b ≠ m0) (h : cnt.toNat + noise.length ≤ th.toNat) :
    scanMarker m0 th cnt (noise ++ tail) =
      scanMarker m0 th (cnt + BitVec.ofNat 17 noise.length) tail := by
  induction noise generalizing cnt with
  | nil => simp
  | cons b noise ih =>
    have ht := th.isLt
    simp only [List.mem_cons, forall_eq_or_imp, List.length_cons] at hn h
    have hc : (cnt + 1#17).toNat = cnt.toNat + 1 := by simp; omega
    have hl : ¬ th.setWidth 17 < cnt + 1#17 := by rw [BitVec.lt_def, hc]; simp; omega
    simp only [List.cons_append, scanMarker, hn.1, hl, if_false]
    rw [ih _ hn.2 (by omega)]
    congr 1
    apply BitVec.eq_of_toNat_eq
    simp
    omega

/-- A search that starts at the start of a PROCESS counts from 0 under either scope. -/
@[simp] theorem scanStart_zero (scope : ScanScope) : scanStart scope 0#17 = 0#17 := by
  cases scope <;> rfl

/-! ### The handlers -/

/-- What a handler can do: move STATE and consume a prefix of RB (at least one byte when it asks to go on), or copy. -/
theorem handler_cases (cap : BitVec 16) (base : Nat) (k : Call) :
    (∃ st j, j ≤ k.m.rb.length ∧ (handler cap base k).m = { k.m with state := st, rb := k.m.rb.drop j } ∧
      ((handler cap base k).rc = .brk ∨ ((handler cap base k).rc = .inProgress ∧ 1 ≤ j))) ∨
    (copyAllowed cap k.m = true ∧ (handler cap base k).m = copyFrame base k.m ∧
      (handler cap base k).rc = if checksumMatches base (copyFrame base k.m) then .messageCopied else .brk) := by
  unfold handler
  split
  · left
    obtain ⟨j, hj, hr, hf⟩ := scanMarker_rest k.m.cfg.m0 k.m.cfg.threshold
      (scanStart k.m.cfg.scanScope k.scanCnt) k.m.rb
    unfold handlerFFB
    by_cases h : (scanMarker k.m.cfg.m0 k.m.cfg.threshold
      (scanStart k.m.cfg.scanScope k.scanCnt) k.m.rb).found = true
    · exact ⟨.fsb, j, hj, by simp [h, hr], .inr ⟨by simp [h], hf h⟩⟩
    · exact ⟨k.m.state, j, hj, by simp [h, hr], .inl (by simp [h])⟩
  · left
    unfold handlerFSB State.rbPop
    cases hrb : k.m.rb with
    | nil => exact ⟨k.m.state, 0, by simp, by simp; rw [← hrb], .inl (by simp)⟩
    | cons b rest => exact ⟨_, 1, by simp, by simp; rfl, .inr ⟨by simp, by omega⟩⟩
  · unfold handlerWAIT
    by_cases h : copyAllowed cap k.m = true
    · exact .inr ⟨h, by simp [h], by simp [h]⟩
    · exact .inl ⟨k.m.state, 0, by simp, by simp [h], .inl (by simp [h])⟩

/-- A handler that asks to go on moved STATE and consumed at least one byte. -/
theorem handler_inProgress {cap : BitVec 16} {base : Nat} {k : Call}
    (h : (handler cap base k).rc = .inProgress) :
    ∃ st j, 1 ≤ j ∧ j ≤ k.m.rb.length ∧ (handler cap base k).m = { k.m with state := st, rb := k.m.rb.drop j } := by
  rcases handler_cases cap base k with ⟨st, j, hj, hm, hrc | ⟨-, hj'⟩⟩ | ⟨-, -, hrc⟩
  · rw [h] at hrc; cases hrc
  · exact ⟨st, j, hj', hj, hm⟩
  · rw [h] at hrc; split at hrc <;> cases hrc

/-! ### The driver -/

/-- An invariant of the handlers is one of the driver. -/
theorem runDriver_induct {P : Call → Prop} (cap : BitVec 16) (base : Nat)
    (hP : ∀ k, P k → P (handler cap base k)) (fuel : Nat) (k : Call) (h : P k) :
    P (runDriver cap base fuel k) := by
  induction fuel generalizing k with
  | zero => exact h
  | succ fuel ih =>
    simp only [runDriver]
    split
    · exact ih _ (hP k h)
    · exact hP k h

/-- One invocation that ends the call. -/
theorem runDriver_stop {cap : BitVec 16} {base : Nat} {k : Call} (fuel : Nat)
    (h : (handler cap base k).rc ≠ .inProgress) :
    runDriver cap base (fuel + 1) k = handler cap base k := by
  simp [runDriver, h]

/-- One invocation that goes on. -/
theorem runDriver_go {cap : BitVec 16} {base : Nat} {k : Call} (fuel : Nat)
    (h : (handler cap base k).rc = .inProgress) :
    runDriver cap base (fuel + 1) k = runDriver cap base fuel (handler cap base k) := by
  simp [runDriver, h]

/-- With one invocation more than RB holds bytes the driver is done, and no further one changes anything. -/
theorem runDriver_enough (cap : BitVec 16) (base : Nat) (k : Call) {fuel : Nat} (h : k.m.rb.length < fuel) :
    runDriver cap base fuel k = runDriver cap base (k.m.rb.length + 1) k := by
  suffices H : ∀ a b : Nat, ∀ k : Call, k.m.rb.length < a → k.m.rb.length < b →
      runDriver cap base a k = runDriver cap base b k from H _ _ _ h (by omega)
  intro a
  induction a with
  | zero => intro b k ha; omega
  | succ a ih =>
    intro b k ha hb
    obtain ⟨b, rfl⟩ : ∃ b', b = b' + 1 := ⟨b - 1, by omega⟩
    by_cases hrc : (handler cap base k).rc = .inProgress
    · obtain ⟨st, j, h1, hj, hm⟩ := handler_inProgress hrc
      have hl : (handler cap base k).m.rb.length = k.m.rb.length - j := by simp [hm]
      rw [runDriver_go _ hrc, runDriver_go _ hrc]
      exact ih _ _ (by omega) (by omega)
    · rw [runDriver_stop _ hrc, runDriver_stop _ hrc]

/-- Everything a driver run can do, given enough invocations: it ends with Break after moving STATE and consuming a
prefix of RB, or it ends with the copy of the frame that stands after a consumed prefix. -/
theorem runDriver_cases (cap : BitVec 16) (base : Nat) (fuel : Nat) (k : Call) (h : k.m.rb.length < fuel) :
    (∃ st j, j ≤ k.m.rb.length ∧
      (runDriver cap base fuel k).m = { k.m with state := st, rb := k.m.rb.drop j } ∧
      (runDriver cap base fuel k).rc = .brk) ∨
    (∃ st j, j ≤ k.m.rb.length ∧ copyAllowed cap { k.m with state := st, rb := k.m.rb.drop j } = true ∧
      (runDriver cap base fuel k).m = copyFrame base { k.m with state := st, rb := k.m.rb.drop j } ∧
      (runDriver cap base fuel k).rc =
        if checksumMatches base (copyFrame base { k.m with state := st, rb := k.m.rb.drop j })
        then .messageCopied else .brk) := by
  induction fuel generalizing k with
  | zero => omega
  | succ fuel ih =>
    by_cases hrc : (handler cap base k).rc = .inProgress
    · obtain ⟨st, j, h1, hj, hm⟩ := handler_inProgress hrc
      rw [runDriver_go _ hrc]
      have hl : (handler cap base k).m.rb.length = k.m.rb.length - j := by simp [hm]
      rcases ih (handler cap base k) (by omega) with ⟨st', j', hj', hm', hrc'⟩ | ⟨st', j', hj', ha, hm', hrc'⟩
      · refine .inl ⟨st', j + j', by omega, ?_, hrc'⟩
        rw [hm', hm]; simp
      · rw [hm] at hm' hrc' ha
        simp only [List.drop_drop] at hm' hrc' ha
        exact .inr ⟨st', j + j', by omega, ha, hm', hrc'⟩
    · rw [runDriver_stop _ hrc]
      rcases handler_cases cap base k with ⟨st, j, hj, hm, hb | ⟨hb, -⟩⟩ | ⟨ha, hm, hr⟩
      · exact .inl ⟨st, j, hj, hm, hb⟩
      · exact absurd hb hrc
      · exact .inr ⟨k.m.state, 0, by omega, by simpa using ha, by simpa using hm, by simpa using hr⟩

/-! ### PROCESS -/

/-- Everything PROCESS can do: it ends with Break after moving STATE and consuming a prefix of RB, or with a copy. -/
theorem processCall_cases (cap : BitVec 16) (base : Nat) (s : State) :
    (∃ st j, j ≤ s.rb.length ∧ (processCall cap base s).m = { s with state := st, rb := s.rb.drop j } ∧
      (processCall cap base s).rc = .brk) ∨
    (∃ st j, j ≤ s.rb.length ∧ copyAllowed cap { s with state := st, rb := s.rb.drop j } = true ∧
      (processCall cap base s).m = copyFrame base { s with state := st, rb := s.rb.drop j } ∧
      (processCall cap base s).rc =
        if checksumMatches base (copyFrame base { s with state := st, rb := s.rb.drop j })
        then .messageCopied else .brk) :=
  runDriver_cases cap base _ { m := s, scanCnt := 0#17, rc := .inProgress } (by simp [State.rbCount])

/-- PROCESS is its call with the response added. -/
theorem execProcess_eq (cap : BitVec 16) (base : Nat) (s : State) :
    execProcess cap base s = .next ((processCall cap base s).m.respond .ok
      (processResult (processCall cap base s).rc (processCall cap base s).m.cfg.n)) := rfl

/-- A PROCESS keeps CFG. -/
theorem processCall_cfg (cap : BitVec 16) (base : Nat) (s : State) : (processCall cap base s).m.cfg = s.cfg := by
  rcases processCall_cases cap base s with ⟨st, j, -, hm, -⟩ | ⟨st, j, -, -, hm, -⟩
  · simp [hm]
  · simp [hm, copyFrame_eq]

/-- A first handler that goes on with SCAN_CNT still 0 leaves the PROCESS of the state it moved to. -/
theorem processCall_go {cap : BitVec 16} {base : Nat} {s s' : State}
    (h : handler cap base ⟨s, 0#17, .inProgress⟩ = ⟨s', 0#17, .inProgress⟩) :
    processCall cap base s = processCall cap base s' := by
  obtain ⟨st, j, h1, hj, hm⟩ :=
    handler_inProgress (cap := cap) (base := base) (k := ⟨s, 0#17, .inProgress⟩) (by rw [h])
  have hl : s'.rb.length = s.rb.length - j := by rw [h] at hm; simp only at hm; rw [hm]; simp
  simp only at hj
  unfold processCall State.rbCount
  rw [runDriver_go _ (by rw [h]), h]
  exact runDriver_enough cap base ⟨s', 0#17, .inProgress⟩ (by simp only; omega)

/-- A PROCESS that starts in WAIT is one invocation of HandlerWAIT. -/
theorem processCall_wait {cap : BitVec 16} {base : Nat} {s : State} (h : s.state = .wait) :
    processCall cap base s = handlerWAIT cap base ⟨s, 0#17, .inProgress⟩ := by
  have hw : handler cap base ⟨s, 0#17, .inProgress⟩ = handlerWAIT cap base ⟨s, 0#17, .inProgress⟩ := by
    simp [handler, h]
  unfold processCall
  rw [runDriver_stop, hw]
  rw [hw]
  unfold handlerWAIT
  split
  · simp only; split <;> simp
  · simp

/-- The copy is allowed exactly when the destination and RB are large enough. -/
theorem copyAllowed_iff {cap : BitVec 16} {s : State} :
    copyAllowed cap s = true ↔ s.cfg.n.toNat ≤ cap.toNat ∧ s.cfg.n.toNat - 2 ≤ s.rb.length := by
  simp only [copyAllowed, Bool.and_eq_true, decide_eq_true_eq]
  rfl

end Sys2Proof.Machine
end

