-- ==== Sys2Proof/Laws/PerInstr.lean ====
section
/-! SUPPORT. The family WordSelects: the command word of a well-formed instruction selects that instruction's row of
the opcode table. One lemma per constructor. -/

namespace Sys2Proof.Laws.WordSelects

/-- The row of the opcode table an instruction belongs to. -/
def rowOf : Instr → Op
  | .put _ _ => .put
  | .putIsr _ _ => .putIsr
  | .process _ _ => .process
  | .reset => .reset
  | .getState => .getState
  | .setState _ => .setState
  | .illegal _ => .illegal

/-- The instruction's word selects its row. -/
def Statement (i : Instr) : Prop := i.wellFormed = true → classify (encodeWord i) = rowOf i

/-- A word with RSVD = 0 selects by its OP, and by its ARG where that must be 0. -/
theorem classify_cmdWord (arg : BitVec 16) (op : BitVec 4) :
    classify (cmdWord arg op) =
      if op.toNat = 1 then .put
      else if op.toNat = 2 then .putIsr
      else if op.toNat = 3 then .process
      else if op.toNat = 4 ∧ arg.toNat = 0 then .reset
      else if op.toNat = 5 ∧ arg.toNat = 0 then .getState
      else if op.toNat = 6 then .setState
      else .illegal := by
  have ho := op.isLt
  have ha := arg.isLt
  rw [classify_eq, cmdWord_toNat]
  have h1 : (arg.toNat * 65536 + op.toNat) % 65536 = op.toNat := by omega
  have h4 : arg.toNat * 65536 + op.toNat = 4 ↔ op.toNat = 4 ∧ arg.toNat = 0 := by omega
  have h5 : arg.toNat * 65536 + op.toNat = 5 ↔ op.toNat = 5 ∧ arg.toNat = 0 := by omega
  simp only [h1, h4, h5]

theorem put (n : BitVec 16) (data : List Byte) : Statement (.put n data) := fun _ => by
  simp [encodeWord, rowOf, classify_cmdWord]

theorem putIsr (n : BitVec 16) (data : List Byte) : Statement (.putIsr n data) := fun _ => by
  simp [encodeWord, rowOf, classify_cmdWord]

theorem process (cap : BitVec 16) (base : Nat) : Statement (.process cap base) := fun _ => by
  simp [encodeWord, rowOf, classify_cmdWord]

theorem reset : Statement .reset := fun _ => by
  simp [encodeWord, rowOf, classify_cmdWord]

theorem getState : Statement .getState := fun _ => by
  simp [encodeWord, rowOf, classify_cmdWord]

theorem setState (v : BitVec 16) : Statement (.setState v) := fun _ => by
  simp [encodeWord, rowOf, classify_cmdWord]

theorem illegal (word : CmdWord) : Statement (.illegal word) := fun h =>
  (classify_eq_illegal_iff word).2 h

end Sys2Proof.Laws.WordSelects
end

