-- ==== Sys2Proof/Tests/Slice0.lean ====
section
/-! SUPPORT. Tests with expected results from spec/ (30_encoding.md, 41_crc.md, 95_test_vectors.md), and for every
statement with hypotheses a concrete state and operands that meet them. -/

namespace Sys2Proof.Tests

open Sys2Proof.Machine

/-! ### Well-formedness: each check refuses an ill-formed term -/

theorem test_wf_put_short_data : Instr.wellFormed (.put 3#16 [0x01#8, 0x02#8]) = false := by decide
theorem test_wf_put_exact_data : Instr.wellFormed (.put 2#16 [0x01#8, 0x02#8]) = true := by decide
theorem test_wf_putIsr_long_data : Instr.wellFormed (.putIsr 1#16 [0x01#8, 0x02#8]) = false := by decide
theorem test_wf_illegal_of_a_legal_word : Instr.wellFormed (.illegal 0x00000004#32) = false := by decide
theorem test_wf_illegal_of_an_illegal_word : Instr.wellFormed (.illegal 0x00010004#32) = true := by decide

/-! ### Decoding: words written out bit by bit from 30_encoding.md rules R61 and R62 -/

theorem test_decode_put :
    decode ⟨0b0000000000000010_000000000000_0001#32, .bytes [0xFF#8, 0x00#8]⟩ =
      .ok (.put 2#16 [0xFF#8, 0x00#8]) := by rfl
theorem test_decode_putIsr :
    decode ⟨0b0000000000000001_000000000000_0010#32, .bytes [0x0A#8]⟩ = .ok (.putIsr 1#16 [0x0A#8]) := by rfl
theorem test_decode_process :
    decode ⟨0b0000000000010010_000000000000_0011#32, .dest 7⟩ = .ok (.process 18#16 7) := by rfl
theorem test_decode_reset :
    decode ⟨0b0000000000000000_000000000000_0100#32, .bytes []⟩ = .ok .reset := by rfl
theorem test_decode_getState :
    decode ⟨0b0000000000000000_000000000000_0101#32, .bytes []⟩ = .ok .getState := by rfl
theorem test_decode_setState :
    decode ⟨0b1000000000000010_000000000000_0110#32, .bytes []⟩ = .ok (.setState 0x8002#16) := by rfl
theorem test_decode_illegal_op :
    decode ⟨0b0000000000000000_000000000000_0111#32, .bytes []⟩ = .ok (.illegal 0x7#32) := by rfl
theorem test_decode_illegal_rsvd :
    decode ⟨0b0000000000000000_000000000001_0001#32, .bytes []⟩ = .ok (.illegal 0x11#32) := by rfl
theorem test_decode_illegal_arg :
    decode ⟨0b0000000000000001_000000000000_0101#32, .bytes []⟩ = .ok (.illegal 0x00010005#32) := by rfl
theorem test_decode_rejects_data_count :
    decode ⟨0x00020001#32, .bytes [0xFF#8]⟩ = .error .dataCount := by rfl
theorem test_decode_rejects_missing_destination :
    decode ⟨0x00020003#32, .bytes []⟩ = .error .destination := by rfl
theorem test_table_word_put :
    decodeTableWord 32 0x00020001 = some (.put 2#16 [0x00#8, 0x00#8]) := by rfl

/-! ### The CRC engine: 41_crc.md rule R109 and 95_test_vectors.md section 2 -/

theorem test_crcBit_carry : crcBit 0xFAFF#16 = 0xE5DF#16 := by decide
theorem test_crcBit_no_carry : crcBit 0x5E1F#16 = 0xBC3E#16 := by decide
theorem test_crcByte : crcByte 0xFFFF#16 0x05#8 = 0xB155#16 := by decide
theorem test_crc16_two_bytes : crc16 [0x01#8, 0x02#8] = 0x0E7C#16 := by decide +kernel

/-! ### One step on small states -/

/-- The configuration of vector V15: CAP 16, N 5, M0 0xAA, M1 0x55, THRESHOLD 10, PER_COMMAND. -/
def small : Cfg := ⟨16#16, 5#16, 0xAA#8, 0x55#8, 10#16, .perCommand, by decide⟩

/-- A state with that configuration, a given STATE and given bytes in RB. -/
def stateOf (p : ParserState) (rb : List Byte) : State := { State.ofCfg small with state := p, rb := rb }

/-- The state a step ends in, if it does. -/
def nextOf (o : Host.Outcome State Fault Refusal) : Option State :=
  match o with
  | .next s => some s
  | .fault _ => none
  | .refused _ => none

/-- The response, STATE and RB an outcome shows. -/
def shown (o : Host.Outcome State Fault Refusal) : Option (Option Response × ParserState × List Byte) :=
  (nextOf o).map fun s => (s.response, s.state, s.rb)

/-- V17: CAP = 4, PUT_ISR 5 accepts 4. -/
theorem test_putIsr_overrun :
    shown (exec (.putIsr 5#16 [0x01#8, 0x02#8, 0x03#8, 0x04#8, 0x05#8])
      (State.ofCfg { small with cap := 4#16, n := 3#16, legal := by decide })) =
      some (some ⟨.ok, 4#16⟩, .ffb, [0x01#8, 0x02#8, 0x03#8, 0x04#8]) := by decide
/-- R111: the free space is CAP - COUNT; the prefix goes after what is buffered. -/
theorem test_put_partial :
    shown (exec (.put 3#16 [0x07#8, 0x08#8, 0x09#8])
      { stateOf .wait [0x01#8, 0x02#8] with cfg := { small with cap := 4#16, legal := by decide } }) =
      some (some ⟨.ok, 2#16⟩, .wait, [0x01#8, 0x02#8, 0x07#8, 0x08#8]) := by decide
/-- R114. -/
theorem test_reset_from_wait :
    shown (exec .reset (stateOf .wait [0x01#8, 0x02#8, 0x03#8])) = some (some ⟨.ok, 3#16⟩, .ffb, []) := by decide
/-- V20: a rejection in WAIT answers 2. -/
theorem test_setState_rejects_seven :
    shown (exec (.setState 7#16) (stateOf .wait [0x01#8])) =
      some (some ⟨.rejected, 2#16⟩, .wait, [0x01#8]) := by decide
/-- V10: SET_STATE 2 is accepted. -/
theorem test_setState_accepts_two :
    shown (exec (.setState 2#16) (stateOf .ffb [])) = some (some ⟨.ok, 2#16⟩, .wait, []) := by decide
/-- R116. -/
theorem test_getState_fsb :
    shown (exec .getState (stateOf .fsb [0x01#8])) = some (some ⟨.ok, 1#16⟩, .fsb, [0x01#8]) := by decide
/-- R117. -/
theorem test_illegal_changes_nothing :
    shown (exec (.illegal 0x14#32) (stateOf .wait [0x01#8])) =
      some (some ⟨.illegal, 0#16⟩, .wait, [0x01#8]) := by decide
/-- V15b: a frame is delivered to indices 0 to 4. -/
theorem test_process_delivers_frame :
    (nextOf (exec (.process 5#16 100) (stateOf .ffb [0xAA#8, 0x55#8, 0x01#8, 0x02#8, 0x7C#8]))).map
      (fun s => (s.response, s.destWrites)) =
      some (some ⟨.ok, 5#16⟩, [(0, 0xAA#8), (1, 0x55#8), (2, 0x01#8), (3, 0x02#8), (4, 0x7C#8)]) := by
  decide +kernel
/-- V15a: a stray 0xAA before the frame loses it. -/
theorem test_process_no_reexamination :
    shown (exec (.process 5#16 0) (stateOf .ffb [0xAA#8, 0xAA#8, 0x55#8, 0x01#8, 0x02#8, 0x7C#8])) =
      some (some ⟨.ok, 0#16⟩, .ffb, []) := by decide +kernel

/-- The §8 frame of vector V1. -/
def frame18 : List Byte :=
  [0xFF#8, 0xFF#8, 0x05#8, 0x00#8, 0x00#8, 0x00#8, 0x00#8, 0x00#8, 0x00#8, 0x00#8, 0x00#8, 0x00#8, 0x00#8,
   0x00#8, 0x07#8, 0xFF#8, 0xFA#8, 0xB7#8]

/-- V1 as a run from reset: PUT 18, PROCESS 18 twice. -/
theorem test_run_V1 :
    observe 3 (State.reset.issue [⟨0x00120001#32, .bytes frame18⟩, ⟨0x00120003#32, .dest 0⟩,
      ⟨0x00120003#32, .dest 0⟩]) =
      ⟨[⟨some ⟨.ok, 18#16⟩, []⟩, ⟨some ⟨.ok, 18#16⟩, indexed frame18⟩, ⟨some ⟨.ok, 0#16⟩, []⟩], .ffb, []⟩ := by
  decide +kernel

/-- V6 and V7: RB = FF 00 00 and the frame, THRESHOLD 1; the two scan scopes differ. -/
theorem test_scan_scopes_differ :
    let s (scope : ScanScope) : State :=
      { State.reset with
        cfg := { State.reset.cfg with threshold := 1#16, scanScope := scope }
        rb := [0xFF#8, 0x00#8, 0x00#8] ++ frame18 }
    shown (exec (.process 18#16 0) (s .perCommand)) = some (some ⟨.ok, 0#16⟩, .ffb, frame18) ∧
    shown (exec (.process 18#16 0) (s .perEntry)) = some (some ⟨.ok, 18#16⟩, .ffb, []) := by
  decide +kernel

/-! ### The interface -/

theorem test_fetch_word_runs_next :
    shown (step (State.reset.withFetchWord 32 0x00030006)) = some (some ⟨.rejected, 0#16⟩, .ffb, []) := by
  decide +kernel
theorem test_construct_default : State.construct Descriptor.default = some State.reset := by decide
theorem test_construct_refuses_zero_cap :
    State.construct { Descriptor.default with cap := 0 } = none := by decide
theorem test_construct_refuses_stalling_frame :
    State.construct { Descriptor.default with cap := 15 } = none := by decide

/-! ### Witnesses: the hypotheses of each statement can be met together -/

theorem stateOf_inv (p : ParserState) (rb : List Byte) (h : rb.length ≤ 16) : (stateOf p rb).Inv :=
  ⟨h, List.Pairwise.nil⟩

/-- The frame of vector V15. -/
def frame5 : List Byte := [0xAA#8, 0x55#8, 0x01#8, 0x02#8, 0x7C#8]

theorem frame5_is_frame : frameOf small [0x01#8, 0x02#8] = frame5 := by decide +kernel

theorem witness_DecodeInvertsEncode : Instr.wellFormed (.put 1#16 [0xFF#8]) = true := by decide
theorem witness_EncodeInvertsDecode :
    decode ⟨0xFFFF0006#32, .bytes []⟩ = .ok (.setState 0xFFFF#16) := by rfl
/-- OP at its boundaries 0, 6, 7 and 15, RSVD, and ARG where it must be 0; a legal word of each OP. -/
theorem witness_IllegalWordsExactlyAndInert :
    [0x0#32, 0x7#32, 0xF#32, 0x11#32, 0x10004#32, 0x10005#32].all illegalWord = true ∧
    [0x1#32, 0x10002#32, 0x10003#32, 0x4#32, 0x5#32, 0x10006#32].all (fun w => ! illegalWord w) = true := by
  decide
theorem witness_TransactionLengthFixedByWord :
    classify 0x00010001#32 = .put ∧ classify 0x00010002#32 = .putIsr ∧ classify 0x00000003#32 = .process ∧
      [0x00#8] ≠ [] ∧ classify 0x4#32 = .reset ∧ rsvdField 0x00010011#32 ≠ 0#12 := by decide
theorem witness_StepRunsDecodedCommand :
    (State.reset.issue [⟨0x5#32, .bytes []⟩]).port = ⟨0x5#32, .bytes []⟩ :: [] ∧
      decode ⟨0x5#32, .bytes []⟩ = .ok .getState := ⟨rfl, rfl⟩
theorem witness_WrongDataCountHasNoMove :
    classify 0x00010001#32 = .put ∧ classify 0x00010002#32 = .putIsr ∧
      ([] : List Byte).length ≠ (argField 0x00010001#32).toNat ∧
      (State.reset.issue [⟨0x00010001#32, .bytes []⟩]).port = ⟨0x00010001#32, .bytes []⟩ :: [] :=
  ⟨by decide, by decide, by decide, rfl⟩
theorem witness_StrayPayloadHasNoMove :
    (classify 0x4#32 ≠ .put ∧ classify 0x4#32 ≠ .putIsr ∧ classify 0x4#32 ≠ .process ∧ [0x00#8] ≠ [] ∧
      (State.reset.issue [⟨0x4#32, .bytes [0x00#8]⟩]).port = ⟨0x4#32, .bytes [0x00#8]⟩ :: []) ∧
    (classify 0x3#32 = .process ∧
      (State.reset.issue [⟨0x3#32, .bytes []⟩]).port = ⟨0x3#32, .bytes []⟩ :: []) ∧
    (classify 0x1#32 ≠ .process ∧ (State.reset.issue [⟨0x1#32, .dest 0⟩]).port = ⟨0x1#32, .dest 0⟩ :: []) := by
  decide
theorem witness_IdleEngineKeepsState : State.reset.port = [] := rfl
theorem witness_RingBufferIsFifo :
    (stateOf .ffb []).rb = [] ∧ (stateOf .ffb [0x01#8]).rbPop = some (0x01#8, stateOf .ffb []) := by decide
theorem witness_CountNeverExceedsCapacity :
    (stateOf .ffb frame5).rb.length ≤ (stateOf .ffb frame5).cfg.cap.toNat ∧
    exec .getState (stateOf .ffb frame5) = .next ((stateOf .ffb frame5).respond .ok 0#16) ∧
    (stateOf .ffb frame5).rb.length + (11#16).toNat ≤ (stateOf .ffb frame5).cfg.cap.toNat ∧
    (List.replicate 11 0x00#8).length = (11#16).toNat ∧
    (stateOf .ffb (List.replicate 16 0x00#8)).rb.length = (stateOf .ffb []).cfg.cap.toNat :=
  ⟨by decide, rfl, by decide, by decide, by decide⟩
theorem witness_PutAppendsAcceptedPrefix : [0x01#8, 0x02#8].length = (2#16).toNat := by decide
theorem witness_PutIsrActsAsPut : ([] : List Byte).length = (0#16).toNat := by decide
theorem witness_ResetDiscardsAndForcesFfb : (stateOf .wait frame5).Inv := stateOf_inv _ _ (by decide)
theorem witness_SetStateAcceptsOrRejects :
    (0#16).toNat = 0 ∧ (1#16).toNat = 1 ∧ (2#16).toNat = 2 ∧ 2 < (3#16).toNat ∧ 2 < (0xFFFF#16).toNat := by decide
theorem witness_GetStateReadsState :
    (stateOf .ffb []).state = .ffb ∧ (stateOf .fsb []).state = .fsb ∧ (stateOf .wait []).state = .wait := by decide
theorem witness_IdempotentCommands :
    (Instr.getState = .getState ∨ (∃ v, Instr.getState = .setState v) ∨ ∃ w, Instr.getState = .illegal w) ∧
    (Instr.setState 3#16 = .getState ∨ (∃ v, Instr.setState 3#16 = .setState v) ∨
      ∃ w, Instr.setState 3#16 = .illegal w) ∧
    (Instr.illegal 0#32 = .getState ∨ (∃ v, Instr.illegal 0#32 = .setState v) ∨
      ∃ w, Instr.illegal 0#32 = .illegal w) :=
  ⟨.inl rfl, .inr (.inl ⟨_, rfl⟩), .inr (.inr ⟨_, rfl⟩)⟩
theorem witness_CommandFootprints :
    exec .reset (stateOf .wait frame5) = .next { stateOf .ffb [] with response := some ⟨.ok, 5#16⟩ } ∧
    ∀ cap base, Instr.reset ≠ .process cap base := ⟨rfl, by simp⟩
theorem witness_DriverEndsWithinBound :
    (Call.mk (stateOf .ffb frame5) 0#17 .inProgress).m.rb.length + 1 ≤ 6 := by decide
/-- Three calls that start with SCAN_CNT = 0, one for each clause: the limit reached exactly, no M0, and M0 after noise. -/
theorem witness_MarkerSearchClosedForm :
    let noise (rb : List Byte) := (rb.takeWhile (· != small.m0)).length
    0 + 11 < 2 ^ 17 ∧ max 1 (small.threshold.toNat + 1 - 0) ≤ noise (List.replicate 11 0x00#8) ∧
    (noise [0x00#8] < max 1 (small.threshold.toNat + 1 - 0) ∧ noise [0x00#8] = [0x00#8].length) ∧
    (noise (0x00#8 :: frame5) < max 1 (small.threshold.toNat + 1 - 0) ∧
      noise (0x00#8 :: frame5) < (0x00#8 :: frame5).length) := by decide
theorem witness_ScanBoundThresholdPlusOne :
    (stateOf .ffb frame5).Inv ∧ (stateOf .ffb frame5).cfg.scanScope = .perCommand ∧
      { small with scanScope := .perEntry }.scanScope = .perEntry ∧ (stateOf .ffb frame5).rb ≠ [] :=
  ⟨stateOf_inv _ _ (by decide), rfl, rfl, by decide⟩
theorem witness_SecondByteHandler :
    (stateOf .fsb []).rb = [] ∧ (stateOf .fsb [0x55#8]).rb = small.m1 :: [] ∧
      (stateOf .fsb [0xAA#8]).rb = 0xAA#8 :: [] ∧ 0xAA#8 ≠ small.m1 := by decide
theorem witness_SecondByteNeverReexamined :
    (stateOf .fsb [0x55#8]).state = .fsb ∧ (stateOf .fsb [0x55#8]).rb = small.m1 :: [] ∧
      (stateOf .fsb [0xAA#8]).rb = 0xAA#8 :: [] ∧ 0xAA#8 ≠ small.m1 := by decide
/-- One state for each disjunct, each at its boundary. -/
theorem witness_CopyNeedsRoomAndBytes :
    (stateOf .wait [0x01#8, 0x02#8]).state = .wait ∧ (4#16).toNat < small.n.toNat ∧
      (stateOf .wait [0x01#8, 0x02#8]).rb.length < small.n.toNat - 2 := by decide
theorem witness_CopyWritesFrame :
    (stateOf .wait [0x01#8, 0x02#8, 0x7C#8]).state = .wait ∧ small.n.toNat ≤ (5#16).toNat ∧
      small.n.toNat - 2 ≤ (stateOf .wait [0x01#8, 0x02#8, 0x7C#8]).rb.length := by decide
theorem witness_ChecksumOverReadBack :
    (stateOf .wait [0x01#8, 0x02#8, 0x7D#8]).state = .wait ∧ small.n.toNat ≤ (65535#16).toNat ∧
      small.n.toNat - 2 ≤ (stateOf .wait [0x01#8, 0x02#8, 0x7D#8]).rb.length := by decide
theorem witness_LowByteDecides :
    (stateOf .wait [0x01#8, 0x02#8, 0x7C#8]).state = .wait ∧ small.n.toNat ≤ (5#16).toNat ∧
      [0x01#8, 0x02#8].length = small.n.toNat - 3 ∧
      (stateOf .wait [0x01#8, 0x02#8, 0x7C#8]).rb = [0x01#8, 0x02#8] ++ 0x7C#8 :: [] := by decide
theorem witness_OneChecksumByteValidates :
    (stateOf .wait []).state = .wait ∧ small.n.toNat ≤ (5#16).toNat ∧
      [0x01#8, 0x02#8].length = small.n.toNat - 3 := by decide
theorem witness_ProcessFootprint :
    exec (.process 5#16 0) (stateOf .ffb []) = .next ((stateOf .ffb []).respond .ok 0#16) := rfl
theorem witness_EmptyBufferProcess : (stateOf .fsb []).rb = [] := rfl
theorem witness_MismatchConsumesFrame :
    (stateOf .ffb []).state = .ffb ∧ small.n.toNat ≤ (5#16).toNat ∧
      [0x01#8, 0x02#8].length = small.n.toNat - 3 ∧ 0x7D#8 ≠ crcLow (crc16 [0x01#8, 0x02#8]) ∧
      (stateOf .ffb [0xAA#8, 0x55#8, 0x01#8, 0x02#8, 0x7D#8, 0x00#8]).rb =
        small.m0 :: small.m1 :: ([0x01#8, 0x02#8] ++ 0x7D#8 :: [0x00#8]) :=
  ⟨rfl, by decide +kernel, by decide +kernel, by decide +kernel, rfl⟩
theorem witness_ConstructionState : State.construct Descriptor.default = some State.reset := by decide
theorem witness_IllegalConfigurationNamesNoInstance :
    State.construct Descriptor.default = some State.reset ∧
      State.construct { Descriptor.default with n := 2 } = none ∧
      State.construct { Descriptor.default with chkSize := 2 } = none ∧
      State.construct { Descriptor.default with cap := 65536 } = none := by decide
theorem witness_StepKeepsInvariant :
    (stateOf .ffb frame5).Inv ∧ step (stateOf .ffb frame5) = .next (stateOf .ffb frame5) :=
  ⟨stateOf_inv _ _ (by decide), rfl⟩
theorem witness_ResetEqualsFreshConstruction :
    State.construct Descriptor.default = some State.reset ∧
      Sys2Proof.core.run 1 (State.reset.issue [⟨0x5#32, .bytes []⟩]) =
        .next (State.reset.respond .ok 0#16) := ⟨by decide, rfl⟩
theorem witness_FrameAfterNoiseRecovered :
    (stateOf .ffb []).state = .ffb ∧ small.n.toNat ≤ (5#16).toNat ∧ (∀ b ∈ List.replicate 10 0x00#8, b ≠ small.m0) ∧
      (List.replicate 10 0x00#8).length ≤ small.threshold.toNat ∧
      [0x01#8, 0x02#8].length = small.n.toNat - 3 ∧
      (stateOf .ffb (List.replicate 10 0x00#8 ++ frame5 ++ [0xAA#8])).rb =
        List.replicate 10 0x00#8 ++ frameOf small [0x01#8, 0x02#8] ++ [0xAA#8] :=
  ⟨rfl, by decide +kernel, by decide +kernel, by decide +kernel, by decide +kernel, by decide +kernel⟩
theorem witness_LongNoiseTakesThresholdPlusOne :
    (stateOf .ffb (List.replicate 11 0x00#8 ++ frame5)).rb = List.replicate 11 0x00#8 ++ frame5 ∧
      (∀ b ∈ List.replicate 11 0x00#8, b ≠ small.m0) ∧
      small.threshold.toNat < (List.replicate 11 0x00#8).length :=
  ⟨rfl, by decide, by decide⟩
theorem witness_UndersizedDestinationKeepsFrame :
    (stateOf .ffb frame5).state = .ffb ∧ (4#16).toNat < small.n.toNat ∧ small.n.toNat ≤ (5#16).toNat ∧
      [0x01#8, 0x02#8].length = small.n.toNat - 3 ∧
      (stateOf .ffb frame5).rb = frameOf small [0x01#8, 0x02#8] ++ [] :=
  ⟨rfl, by decide +kernel, by decide +kernel, by decide +kernel, by decide +kernel⟩
/-- CAP = N - 2, the smallest legal ring buffer. -/
theorem witness_ChunkedDeliveryEqualsBulk :
    let s : State := State.ofCfg { small with cap := 3#16, legal := by decide }
    let chunks : List (List Byte) := [[0xAA#8], [0x55#8, 0x01#8], [0x02#8, 0x7C#8]]
    let commands := chunks.flatMap fun c =>
      [encode (.put (BitVec.ofNat 16 c.length) c), encode (.process 5#16 0)]
    (s.issue commands).state = .ffb ∧ (s.issue commands).rb = [] ∧ s.cfg.n.toNat ≤ (5#16).toNat ∧
      [0x01#8, 0x02#8].length = s.cfg.n.toNat - 3 ∧
      (∀ c ∈ chunks, c ≠ [] ∧ c.length ≤ s.cfg.cap.toNat) ∧
      chunks.flatten = frameOf s.cfg [0x01#8, 0x02#8] ∧ (s.issue commands).port = commands ++ [] :=
  ⟨rfl, rfl, by decide, by decide, by decide, by decide +kernel, by decide⟩
/-- Two different states that agree in CFG, STATE, RB and port. -/
theorem witness_RunShowsOnlyVisibleState :
    let s := stateOf .wait frame5
    let s' := { stateOf .wait frame5 with dst := [(3, 0x09#8)], response := some ⟨.ok, 1#16⟩ }
    s ≠ s' ∧ s.cfg = s'.cfg ∧ s.state = s'.state ∧ s.rb = s'.rb ∧ s.port = s'.port := by decide
theorem witness_NoStallInWait :
    (stateOf .wait []).Inv ∧ (stateOf .wait []).state = .wait ∧ small.n.toNat ≤ (5#16).toNat :=
  ⟨stateOf_inv _ _ (by decide), rfl, by decide⟩

end Sys2Proof.Tests
end

section
/-! ### The scope rules: what a step runs, what every command answers, which engines exist

The equation lemmas for `exec` and `step`, then the statements of 00_scope.md. -/

namespace Sys2Proof.Machine

/-! #### One equation per command and per case of a step -/

section
variable (s : State)
@[simp] theorem exec_put (n : BitVec 16) (data : List Byte) :
    exec (.put n data) s = .next (putBytes n data s) := rfl
@[simp] theorem exec_putIsr (n : BitVec 16) (data : List Byte) :
    exec (.putIsr n data) s = .next (putBytes n data s) := rfl
@[simp] theorem exec_process (cap : BitVec 16) (base : Nat) :
    exec (.process cap base) s = execProcess cap base s := rfl
@[simp] theorem exec_reset :
    exec .reset s = .next ({ s.rbClear with state := .ffb }.respond .ok (countResult s.rbCount)) := rfl
@[simp] theorem exec_getState : exec .getState s = .next (s.respond .ok (stateResult s.state)) := rfl
@[simp] theorem exec_setState (v : BitVec 16) : exec (.setState v) s = execSetState v s := rfl
@[simp] theorem exec_illegal (word : CmdWord) : exec (.illegal word) s = .next (s.respond .illegal 0#16) := rfl
end

theorem step_of_port_nil {s : State} (h : s.port = []) : step s = .next s := by
  simp [step, h]

theorem step_of_decode_ok {s : State} {t : Transaction} {later : List Transaction} {i : Instr}
    (hp : s.port = t :: later) (hd : decode t = .ok i) : step s = exec i (s.accept later) := by
  simp [step, hp, hd]

theorem step_of_decode_error {s : State} {t : Transaction} {later : List Transaction} {e : DecodeError}
    (hp : s.port = t :: later) (hd : decode t = .error e) : step s = .refused (portRefusal e) := by
  simp [step, hp, hd]

/-- Settles O7: `accept` is the update the statement writes out. -/
theorem stepRunsDecodedCommand : Obligations.StepRunsDecodedCommand :=
  fun _ _ _ _ hp hd => step_of_decode_ok hp hd

/-! #### The STATUS of a command -/

/-- SET_STATE's value names no state exactly when it is above 2 (30_encoding.md rule R66). -/
theorem stateOperand_eq_none_iff (v : BitVec 16) : stateOperand v = none ↔ 2 < v.toNat := by
  obtain h | h | h | ⟨k, h⟩ : v.toNat = 0 ∨ v.toNat = 1 ∨ v.toNat = 2 ∨ ∃ k, v.toNat = k + 3 := by
    by_cases h : 2 < v.toNat
    · exact .inr (.inr (.inr ⟨v.toNat - 3, by omega⟩))
    · omega
  all_goals simp [stateOperand, h]

theorem execSetState_of_gt {v : BitVec 16} (h : 2 < v.toNat) (s : State) :
    execSetState v s = .next (s.respond .rejected (stateResult s.state)) := by
  simp [execSetState, (stateOperand_eq_none_iff v).2 h]

theorem execSetState_of_le {v : BitVec 16} (h : ¬ 2 < v.toNat) (s : State) :
    ∃ p, stateOperand v = some p ∧ execSetState v s = .next ({ s with state := p }.respond .ok (stateResult p)) := by
  obtain ⟨p, hp⟩ := Option.ne_none_iff_exists'.1 (mt (stateOperand_eq_none_iff v).1 h)
  exact ⟨p, hp, by simp [execSetState, hp]⟩

/-- The STATUS a command answers with; no state has a part in it (30_encoding.md rules R64, R66). -/
def answeredStatus : Instr → Status
  | .illegal _ => .illegal
  | .setState v => if 2 < v.toNat then .rejected else .ok
  | .put _ _ | .putIsr _ _ | .process _ _ | .reset | .getState => .ok

/-- Every command completes in every state, with the STATUS `answeredStatus` says. -/
theorem exec_answers (i : Instr) (s : State) :
    ∃ t result, exec i s = .next t ∧ t.response = some ⟨answeredStatus i, result⟩ := by
  cases i with
  | put n data => exact ⟨_, _, exec_put s n data, rfl⟩
  | putIsr n data => exact ⟨_, _, exec_putIsr s n data, rfl⟩
  | process cap base => exact ⟨_, _, execProcess_eq cap base s, rfl⟩
  | reset => exact ⟨_, _, exec_reset s, rfl⟩
  | getState => exact ⟨_, _, exec_getState s, rfl⟩
  | illegal word => exact ⟨_, _, exec_illegal s word, rfl⟩
  | setState v =>
    by_cases h : 2 < v.toNat
    · exact ⟨_, stateResult s.state, execSetState_of_gt h s, by simp [answeredStatus, h]⟩
    · obtain ⟨p, -, hp⟩ := execSetState_of_le h s
      exact ⟨_, stateResult p, hp, by simp [answeredStatus, h]⟩

theorem Status.code_ne_three (st : Status) : st.code ≠ 3#2 := by
  cases st <;> decide

theorem answeredStatus_eq_illegal_iff (i : Instr) : answeredStatus i = .illegal ↔ ∃ w, i = .illegal w := by
  cases i with
  | setState v => by_cases h : 2 < v.toNat <;> simp [answeredStatus, h]
  | _ => simp [answeredStatus]

theorem answeredStatus_eq_rejected_iff (i : Instr) :
    answeredStatus i = .rejected ↔ ∃ v, i = .setState v ∧ 2 < v.toNat := by
  cases i <;> simp [answeredStatus]

/-- Settles O11: the response is `exec_answers`'s, and what remains is about its STATUS alone. -/
theorem everyCommandAnswers : Obligations.EveryCommandAnswers := by
  intro i s
  obtain ⟨t, result, ht, hr⟩ := exec_answers i s
  refine ⟨t, _, ht, hr, Status.code_ne_three _, answeredStatus_eq_illegal_iff i,
    answeredStatus_eq_rejected_iff i, ?_⟩
  cases i with
  | setState v => by_cases h : 2 < v.toNat <;> simp [answeredStatus, h, Status.code]
  | _ => rfl

/-! #### Construction -/

/-- Whatever legal configuration an engine is built with, it starts within the invariant. -/
theorem inv_ofCfg (c : Cfg) : (State.ofCfg c).Inv where
  rb_le_cap := by simp
  dst_wf := wf_ofCfg c

theorem construct_eq_none_iff (d : Descriptor) : State.construct d = none ↔ ¬ d.valid := by
  simp [State.construct]

/-- A constructed engine is the construction state of the descriptor's registers. -/
theorem construct_eq_some_iff {d : Descriptor} {s : State} :
    State.construct d = some s ↔ ∃ h : d.valid, State.ofCfg (d.toCfg h) = s := by
  by_cases h : d.valid
  · rw [State.construct, dif_pos h, exists_prop_of_true h, Option.some_inj]
  · rw [State.construct, dif_neg h]
    exact iff_of_false (by simp) fun ⟨h', _⟩ => h h'

/-- Settles O41. -/
theorem resetSatisfiesInvariant : Obligations.ResetSatisfiesInvariant := inv_ofCfg _

/-- Settles O40: construction refuses exactly the descriptors that are not `valid`, and the constraints on a state's
CFG are in its type. -/
theorem illegalConfigurationNamesNoInstance : Obligations.IllegalConfigurationNamesNoInstance := by
  intro d
  refine ⟨?_, ?_, fun s => ⟨s.cfg.one_le_cap, s.cfg.three_le_n, s.cfg.n_sub_two_le_cap⟩⟩
  · rw [construct_eq_none_iff]
    unfold Descriptor.valid
    omega
  · intro s hs
    obtain ⟨h, rfl⟩ := construct_eq_some_iff.1 hs
    exact inv_ofCfg _

/-! #### PUT with room for all its bytes, and PROCESS in WAIT with a whole frame -/

/-- A write that fits is accepted whole (20_memory.md rule R41). -/
theorem State.rbAccepts_of_fits {s : State} {n : Nat} (h : s.rb.length + n ≤ s.cfg.cap.toNat) :
    s.rbAccepts n = n :=
  Nat.min_eq_left (by unfold State.rbCount; omega)

/-- A PUT whose data fit appends them all and answers their number. -/
theorem exec_put_of_fits {s : State} {n : BitVec 16} {data : List Byte} (hl : data.length = n.toNat)
    (h : s.rb.length + n.toNat ≤ s.cfg.cap.toNat) :
    exec (.put n data) s = .next ({ s with rb := s.rb ++ data }.respond .ok n) := by
  have hacc : s.rbAccepts n.toNat = n.toNat := State.rbAccepts_of_fits h
  have htake : data.take n.toNat = data := List.take_of_length_le hl.le
  simp [putBytes, countOperand, countResult, State.rbWrite_eq, hacc, htake]

/-- A PROCESS in WAIT whose copy is allowed copies one frame and stops. -/
theorem exec_process_wait_copies {cap : BitVec 16} {s : State} (base : Nat) (hw : s.state = .wait)
    (hcap : s.cfg.n.toNat ≤ cap.toNat) (hrb : s.cfg.n.toNat - 2 ≤ s.rb.length) :
    exec (.process cap base) s = .next ((copyFrame base s).respond .ok
      (if checksumMatches base (copyFrame base s) then s.cfg.n else 0#16)) := by
  have ha : copyAllowed cap s = true := copyAllowed_iff.2 ⟨hcap, hrb⟩
  have hcfg : (copyFrame base s).cfg = s.cfg := by rw [copyFrame_eq]
  rw [exec_process, execProcess_eq, processCall_wait hw]
  by_cases hc : checksumMatches base (copyFrame base s) = true <;>
    simp [handlerWAIT, ha, hc, hcfg, processResult]

/-- How many bytes RB lacks of the N - 2 that a copy takes. -/
def missingBytes (s : State) : Nat := s.cfg.n.toNat - 2 - s.rb.length

/-- The missing bytes fit into RB, since N - 2 ≤ CAP (00_scope.md rule R4). -/
theorem missingBytes_fit {s : State} (h : s.Inv) : s.rb.length + missingBytes s ≤ s.cfg.cap.toNat := by
  have hcap := s.cfg.n_sub_two_le_cap
  have hrb := h.rb_le_cap
  unfold missingBytes
  omega

/-- Settles O49: the PUT is one of exactly the missing bytes (of none where RB holds a frame already). -/
theorem noStallInWait : Obligations.NoStallInWait := by
  intro cap base s hinv hw hcap
  let n := BitVec.ofNat 16 (missingBytes s)
  let data : List Byte := List.replicate (missingBytes s) 0#8
  have hfit := missingBytes_fit hinv
  have hn : n.toNat = missingBytes s := by
    have hcap16 := s.cfg.cap.isLt
    simp only [n, BitVec.toNat_ofNat]
    omega
  have hlen : data.length = n.toNat := by simp [data, hn]
  let t := { s with rb := s.rb ++ data }.respond .ok n
  have hput : exec (.put n data) s = .next t := exec_put_of_fits hlen (by omega)
  have hrb : t.cfg.n.toNat - 2 ≤ t.rb.length := by simp [t, data, missingBytes]; omega
  refine ⟨n, data, t, _, hlen, hput, rfl, exec_process_wait_copies base hw hcap hrb, ?_⟩
  simp [copyFrame_eq, t]

end Sys2Proof.Machine
end

section
/-! ### The state rules: the invariant, each command's footprint, PROCESS's footprint, and no hidden state

What PUT, SET_STATE, PROCESS and a step can do, then the statements of 10_state.md. -/

namespace Sys2Proof.Machine

/-! #### What a command can do -/

/-- PUT appends the data bytes that RB accepts and answers how many they are. -/
theorem putBytes_eq (n : BitVec 16) (data : List Byte) (s : State) :
    putBytes n data s =
      { s with rb := s.rb ++ data.take (s.rbAccepts n.toNat) }.respond .ok (countResult (s.rbAccepts n.toNat)) := by
  rw [putBytes, State.rbWrite_eq, countOperand]

/-- SET_STATE moves STATE if its operand names one, and answers the number of the STATE it leaves. -/
theorem execSetState_eq (v : BitVec 16) (s : State) :
    execSetState v s =
      .next ({ s with state := (stateOperand v).getD s.state }.respond
        (if (stateOperand v).isSome then .ok else .rejected) (stateResult ((stateOperand v).getD s.state))) := by
  unfold execSetState
  cases stateOperand v <;> rfl

/-- The state after a search that moved STATE to `st` and consumed the `j` oldest bytes of RB. -/
def State.searched (s : State) (st : ParserState) (j : Nat) : State :=
  { s with state := st, rb := s.rb.drop j }

section
variable (s : State) (st : ParserState) (j : Nat)
@[simp] theorem State.searched_cfg : (s.searched st j).cfg = s.cfg := rfl
@[simp] theorem State.searched_rb : (s.searched st j).rb = s.rb.drop j := rfl
@[simp] theorem State.searched_dst : (s.searched st j).dst = s.dst := rfl
@[simp] theorem State.searched_destWrites : (s.searched st j).destWrites = s.destWrites := rfl
@[simp] theorem State.searched_port : (s.searched st j).port = s.port := rfl
end

/-- PROCESS searches and answers 0, or it searches, copies one frame and answers 0 or N. -/
theorem exec_process_cases {cap : BitVec 16} {base : Nat} {s t : State}
    (h : exec (.process cap base) s = .next t) :
    ∃ st j, j ≤ s.rb.length ∧
      (t = (s.searched st j).respond .ok 0#16 ∨
        copyAllowed cap (s.searched st j) = true ∧
          ∃ result, (result = 0#16 ∨ result = s.cfg.n) ∧
            t = (copyFrame base (s.searched st j)).respond .ok result) := by
  rw [exec_process, execProcess_eq, processCall_cfg, Host.Outcome.next.injEq] at h
  subst h
  rcases processCall_cases cap base s with ⟨st, j, hj, hm, hrc⟩ | ⟨st, j, hj, ha, hm, hrc⟩
  · exact ⟨st, j, hj, .inl (by rw [hm, hrc]; rfl)⟩
  · refine ⟨st, j, hj, .inr ⟨ha, _, ?_, by rw [hm]; rfl⟩⟩
    rw [hrc]
    split
    · exact .inr rfl
    · exact .inl rfl

/-- A command other than PROCESS writes STATE, RB and the response at most. -/
theorem exec_of_ne_process {i : Instr} (hi : ∀ cap base, i ≠ .process cap base) (s : State) :
    ∃ st rb r, exec i s = .next { s with state := st, rb := rb, response := r } := by
  cases i with
  | process cap base => exact absurd rfl (hi cap base)
  | put n data => exact ⟨_, _, _, by rw [exec_put, putBytes_eq]; rfl⟩
  | putIsr n data => exact ⟨_, _, _, by rw [exec_putIsr, putBytes_eq]; rfl⟩
  | setState v => exact ⟨_, _, _, execSetState_eq v s⟩
  | reset => exact ⟨_, _, _, exec_reset s⟩
  | getState => exact ⟨_, _, _, exec_getState s⟩
  | illegal word => exact ⟨_, _, _, exec_illegal s word⟩

/-- A command other than PROCESS leaves the destination memory and the record of its writes. -/
theorem exec_keeps_dst {i : Instr} (hi : ∀ cap base, i ≠ .process cap base) {s t : State}
    (h : exec i s = .next t) : t.dst = s.dst ∧ t.destWrites = s.destWrites := by
  obtain ⟨st, rb, r, he⟩ := exec_of_ne_process hi s
  obtain rfl := Host.Outcome.next.inj (h.symm.trans he)
  exact ⟨rfl, rfl⟩

/-- No command writes CFG or the port (10_state.md rule R24). -/
theorem exec_keeps_cfg_port {i : Instr} {s t : State} (h : exec i s = .next t) :
    t.cfg = s.cfg ∧ t.port = s.port := by
  by_cases hi : ∀ cap base, i ≠ .process cap base
  · obtain ⟨st, rb, r, he⟩ := exec_of_ne_process hi s
    obtain rfl := Host.Outcome.next.inj (h.symm.trans he)
    exact ⟨rfl, rfl⟩
  · push Not at hi
    obtain ⟨cap, base, rfl⟩ := hi
    obtain ⟨st, j, -, rfl | ⟨-, result, -, rfl⟩⟩ := exec_process_cases h <;> simp [copyFrame_eq]

/-- A step that answers a next state is idle or runs the command at the front of the port. -/
theorem step_cases {s t : State} (h : step s = .next t) :
    (s.port = [] ∧ t = s) ∨
      ∃ tr later i, s.port = tr :: later ∧ decode tr = .ok i ∧ exec i (s.accept later) = .next t := by
  cases hp : s.port with
  | nil =>
    rw [step_of_port_nil hp] at h
    exact .inl ⟨rfl, (Host.Outcome.next.inj h).symm⟩
  | cons tr later =>
    cases hd : decode tr with
    | error e => rw [step_of_decode_error hp hd] at h; cases h
    | ok i => rw [step_of_decode_ok hp hd] at h; exact .inr ⟨tr, later, i, rfl, hd, h⟩

/-! #### The invariant: one rule per state operation -/

namespace State.Inv
variable {s : State} (hs : s.Inv)
include hs

theorem respond (status : Status) (result : BitVec 16) : (s.respond status result).Inv :=
  ⟨hs.rb_le_cap, hs.dst_wf⟩

theorem withState (st : ParserState) : { s with state := st }.Inv := ⟨hs.rb_le_cap, hs.dst_wf⟩

theorem accept (later : List Transaction) : (s.accept later).Inv := ⟨hs.rb_le_cap, hs.dst_wf⟩

theorem rbClear : s.rbClear.Inv := ⟨Nat.zero_le _, hs.dst_wf⟩

theorem searched (st : ParserState) (j : Nat) : (s.searched st j).Inv where
  rb_le_cap := (List.drop_sublist j s.rb).length_le.trans hs.rb_le_cap
  dst_wf := hs.dst_wf

/-- A write accepts no more than the free space (20_memory.md rules R41, R45). -/
theorem rbWrite (data : List Byte) (n : Nat) : (s.rbWrite data n).Inv where
  rb_le_cap := by
    have hcap := hs.rb_le_cap
    have hfree := s.rbAccepts_le n
    simp only [State.rbWrite_eq, List.length_append, List.length_take]
    omega
  dst_wf := by simpa only [State.rbWrite_eq] using hs.dst_wf

/-- A copy consumes bytes of RB and writes the destination in canonical form. -/
theorem copyFrame (base : Nat) : (copyFrame base s).Inv where
  rb_le_cap := by
    rw [copyFrame_eq]
    exact (List.drop_sublist _ s.rb).length_le.trans hs.rb_le_cap
  dst_wf := wf_copyFrame base hs.dst_wf

end State.Inv

/-- Every command keeps the invariant. -/
theorem exec_keeps_inv {i : Instr} {s t : State} (hs : s.Inv) (h : exec i s = .next t) : t.Inv := by
  cases i with
  | process cap base =>
    obtain ⟨st, j, -, rfl | ⟨-, result, -, rfl⟩⟩ := exec_process_cases h
    · exact (hs.searched st j).respond _ _
    · exact ((hs.searched st j).copyFrame base).respond _ _
  | put n data | putIsr n data =>
    obtain rfl := Host.Outcome.next.inj h
    exact (hs.rbWrite data _).respond _ _
  | setState v =>
    obtain rfl := Host.Outcome.next.inj (h.symm.trans (execSetState_eq v s))
    exact (hs.withState _).respond _ _
  | reset =>
    obtain rfl := Host.Outcome.next.inj h
    exact (hs.rbClear.withState .ffb).respond _ _
  | getState | illegal word =>
    obtain rfl := Host.Outcome.next.inj h
    exact hs.respond _ _

/-- Settles O42: an idle step changes nothing, and accepting a transaction and running a command keep both. -/
theorem stepKeepsInvariant : Obligations.StepKeepsInvariant := by
  intro s t hs h
  obtain ⟨-, rfl⟩ | ⟨tr, later, i, -, -, he⟩ := step_cases h
  · exact ⟨hs, rfl⟩
  · exact ⟨exec_keeps_inv (hs.accept later) he, (exec_keeps_cfg_port he).1⟩

/-! #### Footprints -/

/-- Settles O21: `exec_keeps_cfg_port` and `exec_keeps_dst`, then STATE and RB command by command. -/
theorem commandFootprints : Obligations.CommandFootprints := by
  intro i s t h
  obtain ⟨hcfg, hport⟩ := exec_keeps_cfg_port h
  refine ⟨hcfg, hport, fun hi => ?_, ?_⟩
  · obtain ⟨hdst, hwrites⟩ := exec_keeps_dst hi h
    exact ⟨fun a => by rw [hdst], hwrites⟩
  cases i with
  | put n data | putIsr n data =>
    obtain rfl := Host.Outcome.next.inj h
    rw [putBytes_eq]
    exact ⟨rfl, _, rfl⟩
  | process cap base =>
    obtain ⟨st, j, -, rfl | ⟨-, result, -, rfl⟩⟩ := exec_process_cases h
    · exact ⟨j, rfl⟩
    · exact ⟨j + (s.cfg.n.toNat - 2), by simp [copyFrame_eq]⟩
  | setState v =>
    obtain rfl := Host.Outcome.next.inj (h.symm.trans (execSetState_eq v s))
    rfl
  | reset | getState | illegal word =>
    obtain rfl := Host.Outcome.next.inj h
    exact ⟨rfl, rfl⟩

/-- The frame copied after a search of `j` bytes holds the last N - 2 of all the bytes consumed. -/
theorem copiedFrame_searched (s : State) (st : ParserState) (j : Nat) :
    copiedFrame (s.searched st j) =
      s.cfg.m0 :: s.cfg.m1 :: (s.rb.take (j + (s.cfg.n.toNat - 2))).drop
        (j + (s.cfg.n.toNat - 2) - (s.cfg.n.toNat - 2)) := by
  simp [copiedFrame, List.drop_take]

/-- Settles O32: without a copy `j` is what the search consumed, with one it is N - 2 bytes more. -/
theorem processFootprint : Obligations.ProcessFootprint := by
  intro cap base s t h
  obtain ⟨hcfg, hport⟩ := exec_keeps_cfg_port h
  refine ⟨hcfg, hport, ?_⟩
  obtain ⟨st, j, hj, rfl | ⟨ha, result, hresult, rfl⟩⟩ := exec_process_cases h
  · exact ⟨j, hj, rfl, .inl ⟨rfl, fun _ => rfl, rfl⟩⟩
  · obtain ⟨hcap, hrb⟩ := copyAllowed_iff.1 ha
    have hlen : (copiedFrame (s.searched st j)).length = s.cfg.n.toNat := length_copiedFrame hrb
    simp only [State.searched_cfg, State.searched_rb, List.length_drop] at hcap hrb
    rw [copyFrame_eq]
    refine ⟨j + (s.cfg.n.toNat - 2), by omega, by simp, .inr ⟨hcap, by omega, rfl, ?_, ?_⟩⟩
    · simpa using hresult
    · refine ⟨copiedFrame (s.searched st j), hlen, copiedFrame_searched s st j, rfl, ?_, ?_⟩
      · rw [← hlen]
        exact Memory.readBytes_writeSeq _ _ _
      · intro a hout
        exact Memory.read_writeSeq_outside _ _ _ _ (by rwa [hlen])

/-! #### No hidden state

Two states that agree in CFG, STATE, RB, port and record of writes differ by their destination memory and their last
response. `withHidden` names the second in terms of the first, and everything the engine does commutes with it. -/

/-- The state with another destination memory and another last response. -/
def State.withHidden (s : State) (d : Memory) (r : Option Response) : State :=
  { s with dst := d, response := r }

/-- The call of a PROCESS on that state. -/
def Call.withHidden (k : Call) (d : Memory) (r : Option Response) : Call :=
  { k with m := k.m.withHidden d r }

section
variable (s : State) (d : Memory) (r : Option Response)
@[simp] theorem State.withHidden_cfg : (s.withHidden d r).cfg = s.cfg := rfl
@[simp] theorem State.withHidden_state : (s.withHidden d r).state = s.state := rfl
@[simp] theorem State.withHidden_rb : (s.withHidden d r).rb = s.rb := rfl
end

/-- The search for M0 reads and writes nothing hidden. -/
theorem handlerFFB_withHidden (k : Call) (d : Memory) (r : Option Response) :
    handlerFFB (k.withHidden d r) = (handlerFFB k).withHidden d r := by
  simp only [handlerFFB, Call.withHidden, State.withHidden]
  split
  next found => simp [found]
  next notFound => simp [notFound]

/-- The test of the second byte reads and writes nothing hidden. -/
theorem handlerFSB_withHidden (k : Call) (d : Memory) (r : Option Response) :
    handlerFSB (k.withHidden d r) = (handlerFSB k).withHidden d r := by
  cases hrb : k.m.rb <;> simp [handlerFSB, State.rbPop, hrb, Call.withHidden, State.withHidden]

/-- The copy writes the same frame into any destination memory. -/
theorem copyFrame_withHidden (base : Nat) (s : State) (d : Memory) (r : Option Response) :
    copyFrame base (s.withHidden d r) =
      (copyFrame base s).withHidden (d.writeSeq base (copiedFrame s)) r := by
  simp [copyFrame_eq, copiedFrame, State.withHidden]

/-- The checksum test reads bytes that the copy has just written, so the memory before it plays no part. -/
theorem checksumMatches_withHidden (base : Nat) {s : State} (hc : s.cfg.n.toNat - 2 ≤ s.rb.length)
    (d : Memory) (r : Option Response) :
    checksumMatches base (copyFrame base (s.withHidden d r)) = checksumMatches base (copyFrame base s) := by
  rw [checksumMatches_copyFrame base hc, checksumMatches_copyFrame base (s := s.withHidden d r) hc]
  rfl

theorem handlerWAIT_withHidden (cap : BitVec 16) (base : Nat) (k : Call) (d : Memory) (r : Option Response) :
    ∃ d', handlerWAIT cap base (k.withHidden d r) = (handlerWAIT cap base k).withHidden d' r := by
  have hallowed : copyAllowed cap (k.m.withHidden d r) = copyAllowed cap k.m := rfl
  by_cases h : copyAllowed cap k.m = true
  · have hcheck := checksumMatches_withHidden base (copyAllowed_iff.1 h).2 d r
    rw [copyFrame_withHidden] at hcheck
    exact ⟨d.writeSeq base (copiedFrame k.m), by
      simp [handlerWAIT, Call.withHidden, hallowed, h, hcheck, copyFrame_withHidden]⟩
  · exact ⟨d, by simp [handlerWAIT, Call.withHidden, hallowed, h]⟩

theorem handler_withHidden (cap : BitVec 16) (base : Nat) (k : Call) (d : Memory) (r : Option Response) :
    ∃ d', handler cap base (k.withHidden d r) = (handler cap base k).withHidden d' r := by
  have hstate : (k.withHidden d r).m.state = k.m.state := rfl
  cases hs : k.m.state with
  | ffb => exact ⟨d, by simp only [handler, hstate, hs, handlerFFB_withHidden]⟩
  | fsb => exact ⟨d, by simp only [handler, hstate, hs, handlerFSB_withHidden]⟩
  | wait => simpa only [handler, hstate, hs] using handlerWAIT_withHidden cap base k d r

/-- The driver takes the same path whatever is hidden. -/
theorem runDriver_withHidden (cap : BitVec 16) (base fuel : Nat) (k : Call) (d : Memory) (r : Option Response) :
    ∃ d', runDriver cap base fuel (k.withHidden d r) = (runDriver cap base fuel k).withHidden d' r := by
  induction fuel generalizing k d with
  | zero => exact ⟨d, rfl⟩
  | succ fuel ih =>
    obtain ⟨d', hd'⟩ := handler_withHidden cap base k d r
    have hrc : (handler cap base (k.withHidden d r)).rc = (handler cap base k).rc := by rw [hd']; rfl
    by_cases h : (handler cap base k).rc = .inProgress
    · rw [runDriver_go fuel h, runDriver_go fuel (hrc.trans h), hd']
      exact ih _ d'
    · rw [runDriver_stop fuel h, runDriver_stop fuel (hrc.trans_ne h)]
      exact ⟨d', hd'⟩

/-- A command on a state with other hidden parts ends the same but for the destination memory; the response is the
same one. -/
theorem exec_withHidden {i : Instr} {s t : State} (h : exec i s = .next t) (d : Memory) (r : Option Response) :
    ∃ d', exec i (s.withHidden d r) = .next { t with dst := d' } := by
  cases i with
  | process cap base =>
    obtain rfl := Host.Outcome.next.inj h
    obtain ⟨d', hd'⟩ := runDriver_withHidden cap base (s.rbCount + 1) ⟨s, 0#17, .inProgress⟩ d r
    have hcall : processCall cap base (s.withHidden d r) = (processCall cap base s).withHidden d' r := hd'
    exact ⟨d', by rw [exec_process, execProcess_eq, hcall]; rfl⟩
  | put n data | putIsr n data =>
    obtain rfl := Host.Outcome.next.inj h
    exact ⟨d, by simp only [exec_put, exec_putIsr, putBytes_eq]; rfl⟩
  | setState v =>
    obtain rfl := Host.Outcome.next.inj (h.symm.trans (execSetState_eq v s))
    exact ⟨d, execSetState_eq v (s.withHidden d r)⟩
  | reset | getState | illegal word =>
    obtain rfl := Host.Outcome.next.inj h
    exact ⟨d, rfl⟩

/-! What a run shows, by the case of its first step. -/

theorem observe_of_port_nil {s : State} (hp : s.port = []) (k : Nat) : observe k s = s.finalRecord := by
  cases k <;> simp [observe, hp]

theorem observe_of_next {s t : State} (hp : s.port ≠ []) (h : step s = .next t) (k : Nat) :
    observe (k + 1) s = (observe k t).after t := by
  cases hport : s.port with
  | nil => exact absurd hport hp
  | cons tr later => simp [observe, hport, h]

theorem observe_of_refused {s : State} {e : Refusal} (h : step s = .refused e) (k : Nat) :
    observe (k + 1) s = s.finalRecord := by
  cases hport : s.port <;> simp [observe, hport, h]

/-- Settles O48, by induction on the number of commands: the two runs' next commands end in states that differ by
their destination memory alone (`exec_withHidden`). -/
theorem runShowsOnlyVisibleState : Obligations.RunShowsOnlyVisibleState := by
  intro k
  induction k with
  | zero =>
    intro s s' _ hstate hrb _
    simp [observe, State.finalRecord, hstate, hrb]
  | succ k ih =>
    intro s s' hcfg hstate hrb hport
    have hfinal : s.finalRecord = s'.finalRecord := by simp [State.finalRecord, hstate, hrb]
    cases hp : s.port with
    | nil => rw [observe_of_port_nil hp, observe_of_port_nil (hport ▸ hp), hfinal]
    | cons tr later =>
      have hp' : s'.port = tr :: later := hport ▸ hp
      cases hd : decode tr with
      | error e =>
        rw [observe_of_refused (step_of_decode_error hp hd), observe_of_refused (step_of_decode_error hp' hd), hfinal]
      | ok i =>
        obtain ⟨t, _, ht, -⟩ := exec_answers i (s.accept later)
        obtain ⟨d, hd'⟩ := exec_withHidden ht s'.dst s'.response
        have haccept : (s.accept later).withHidden s'.dst s'.response = s'.accept later := by
          simp [State.accept, State.withHidden, hcfg, hstate, hrb]
        rw [haccept] at hd'
        have hstep : step s = .next t := (step_of_decode_ok hp hd).trans ht
        have hstep' : step s' = .next { t with dst := d } := (step_of_decode_ok hp' hd).trans hd'
        rw [observe_of_next (by simp [hp]) hstep, observe_of_next (by simp [hp']) hstep',
          ih t { t with dst := d } rfl rfl rfl rfl]
        rfl

end Sys2Proof.Machine
end

section
/-! ### The memory rules: the ring buffer is a FIFO within its capacity

What a pop answers, what a full buffer does to a PUT and what a handler leaves in RB, then the statements of
20_memory.md. -/

namespace Sys2Proof.Machine

/-! #### First in, first out -/

theorem State.rbPop_eq_none_iff {s : State} : s.rbPop = none ↔ s.rb = [] := by
  cases hrb : s.rb <;> simp [State.rbPop, hrb]

theorem State.rbPop_of_cons {s : State} {b : Byte} {rest : List Byte} (h : s.rb = b :: rest) :
    s.rbPop = some (b, { s with rb := rest }) := by
  simp [State.rbPop, h]

/-- A pop that answers a byte found it at the front of RB, and removes it alone. -/
theorem State.rb_of_rbPop_eq_some {s s' : State} {x : Byte} (h : s.rbPop = some (x, s')) :
    ∃ rest, s.rb = x :: rest ∧ s' = { s with rb := rest } := by
  cases hrb : s.rb with
  | nil => rw [State.rbPop_eq_none_iff.2 hrb] at h; cases h
  | cons b rest =>
    rw [State.rbPop_of_cons hrb] at h
    cases h
    exact ⟨rest, rfl, rfl⟩

/-- Settles O13: a push appends at the far end from where `rbPop_of_cons` takes. -/
theorem ringBufferIsFifo : Obligations.RingBufferIsFifo := by
  refine ⟨fun s => State.rbPop_eq_none_iff, ?_, ?_⟩
  · intro s b hempty
    have hpushed : (s.rbPush b).rb = b :: s.rb := by simp [hempty]
    exact State.rbPop_of_cons hpushed
  · intro s s' x b hpop
    obtain ⟨rest, hrb, rfl⟩ := State.rb_of_rbPop_eq_some hpop
    have hpushed : (s.rbPush b).rb = x :: (rest ++ [b]) := by simp [hrb]
    exact ⟨hrb, State.rbPop_of_cons hpushed⟩

/-! #### COUNT and CAP -/

/-- COUNT's bound alone is kept by every command: the destination memory has no part in it, so the invariant's other
half may be taken for granted (`exec_withHidden`). -/
theorem exec_keeps_rb_le_cap {i : Instr} {s t : State} (hs : s.rb.length ≤ s.cfg.cap.toNat)
    (h : exec i s = .next t) : t.rb.length ≤ t.cfg.cap.toNat := by
  have hinv : (s.withHidden [] none).Inv := ⟨hs, List.Pairwise.nil⟩
  obtain ⟨d, hd⟩ := exec_withHidden h [] none
  exact (exec_keeps_inv hinv hd).rb_le_cap

/-- A handler takes bytes from the front of RB alone, and leaves CFG. -/
theorem handler_consumes (cap : BitVec 16) (base : Nat) (k : Call) :
    ∃ j, (handler cap base k).m.rb = k.m.rb.drop j ∧ (handler cap base k).m.cfg = k.m.cfg := by
  rcases handler_cases cap base k with ⟨st, j, -, hm, -⟩ | ⟨-, hm, -⟩
  · exact ⟨j, by rw [hm], by rw [hm]⟩
  · exact ⟨k.m.cfg.n.toNat - 2, by rw [hm, copyFrame_eq], by rw [hm, copyFrame_eq]⟩

theorem handler_keeps_rb_le_cap (cap : BitVec 16) (base : Nat) (k : Call)
    (h : k.m.rb.length ≤ k.m.cfg.cap.toNat) :
    (handler cap base k).m.rb.length ≤ (handler cap base k).m.cfg.cap.toNat := by
  obtain ⟨j, hrb, hcfg⟩ := handler_consumes cap base k
  rw [hrb, hcfg]
  exact (List.drop_sublist j k.m.rb).length_le.trans h

/-- A full buffer accepts nothing (20_memory.md rule R45). -/
theorem State.rbAccepts_of_full {s : State} (h : s.rb.length = s.cfg.cap.toNat) (n : Nat) : s.rbAccepts n = 0 := by
  have hfree := s.rbAccepts_le n
  omega

/-- A PUT into a full buffer appends nothing and answers 0, whatever its data. -/
theorem exec_put_of_full {s : State} (h : s.rb.length = s.cfg.cap.toNat) (n : BitVec 16) (data : List Byte) :
    exec (.put n data) s = .next (s.respond .ok 0#16) := by
  simp [putBytes_eq, State.rbAccepts_of_full h, countResult]

/-- Settles O14: each clause is the lemma of its case, and the handlers' bound is the driver's by `runDriver_induct`. -/
theorem countNeverExceedsCapacity : Obligations.CountNeverExceedsCapacity := by
  refine ⟨fun _ _ _ => exec_keeps_rb_le_cap, ?_, fun _ _ _ => exec_put_of_fits, ?_⟩
  · intro cap base fuel k hk
    exact runDriver_induct (P := fun k => k.m.rb.length ≤ k.m.cfg.cap.toNat) cap base
      (handler_keeps_rb_le_cap cap base) fuel k hk
  · intro n data s _ hfull
    exact exec_put_of_full hfull n data

end Sys2Proof.Machine
end

section
/-! ### The encoding rules: decoder and encoder are inverse, and the word alone selects the command and its length

What a command word is built from, read off the row it selects, what PROCESS does with a frame after noise, and the
statements of 30_encoding.md. -/

namespace Sys2Proof.Machine

/-! #### From an instruction to its word and back -/

/-- The word of a well-formed command selects the command's row of the opcode table. -/
theorem classify_encodeWord {i : Instr} (h : i.wellFormed = true) :
    classify (encodeWord i) = Laws.WordSelects.rowOf i := by
  have hrow : Laws.WordSelects.Statement i := by
    cases i with
    | put n data => exact Laws.WordSelects.put n data
    | putIsr n data => exact Laws.WordSelects.putIsr n data
    | process cap base => exact Laws.WordSelects.process cap base
    | reset => exact Laws.WordSelects.reset
    | getState => exact Laws.WordSelects.getState
    | setState v => exact Laws.WordSelects.setState v
    | illegal word => exact Laws.WordSelects.illegal word
  exact hrow h

/-- Settles O2: the word selects the command's row, and that row's reader takes ARG and the payload as they were
encoded. -/
theorem decodeInvertsEncode : Obligations.DecodeInvertsEncode := by
  intro i h
  rw [encode, decode_eq_ok, classify_encodeWord h]
  cases i with
  | put n data | putIsr n data =>
    have hlen : data.length = n.toNat := by simpa [Instr.wellFormed] using h
    exact ⟨data, rfl, by simpa [encodeWord] using hlen, by simp [encodeWord]⟩
  | process cap base => exact ⟨base, rfl, by simp [encodeWord]⟩
  | setState v => exact ⟨rfl, by simp [encodeWord]⟩
  | reset | getState | illegal word => exact ⟨rfl, rfl⟩

/-- What a word is that selects a row: the row's OP with RSVD zero and its own ARG, or an illegal word. -/
theorem word_of_classify (w : CmdWord) :
    match classify w with
    | .put => cmdWord (argField w) 0x1#4 = w
    | .putIsr => cmdWord (argField w) 0x2#4 = w
    | .process => cmdWord (argField w) 0x3#4 = w
    | .reset => cmdWord 0#16 0x4#4 = w
    | .getState => cmdWord 0#16 0x5#4 = w
    | .setState => cmdWord (argField w) 0x6#4 = w
    | .illegal => illegalWord w = true := by
  have hill := classify_eq_illegal_iff w
  rw [classify_eq] at hill ⊢
  split_ifs at hill ⊢ with hput hputIsr hprocess hreset hgetState hsetState
  · exact cmdWord_argField hput
  · exact cmdWord_argField hputIsr
  · exact cmdWord_argField hprocess
  · exact BitVec.eq_of_toNat_eq ((cmdWord_toNat _ _).trans hreset.symm)
  · exact BitVec.eq_of_toNat_eq ((cmdWord_toNat _ _).trans hgetState.symm)
  · exact cmdWord_argField hsetState
  · exact hill.1 rfl

/-- Settles O3: the row a word selects fixes its OP and RSVD, and the decoder keeps the rest of the transaction. -/
theorem encodeInvertsDecode : Obligations.EncodeInvertsDecode := by
  rintro ⟨w, p⟩ i h
  rw [decode_eq_ok] at h
  have hw := word_of_classify w
  cases hc : classify w with
  | put | putIsr =>
    rw [hc] at h hw
    obtain ⟨data, rfl, hlen, rfl⟩ := h
    exact ⟨congrArg (Transaction.mk · _) hw, by simpa [Instr.wellFormed] using hlen⟩
  | process =>
    rw [hc] at h hw
    obtain ⟨base, rfl, rfl⟩ := h
    exact ⟨congrArg (Transaction.mk · _) hw, rfl⟩
  | reset | getState | setState =>
    rw [hc] at h hw
    obtain ⟨rfl, rfl⟩ := h
    exact ⟨congrArg (Transaction.mk · _) hw, rfl⟩
  | illegal =>
    rw [hc] at h hw
    obtain ⟨rfl, rfl⟩ := h
    exact ⟨rfl, hw⟩

/-! #### Legal and illegal words -/

/-- The OP field of a word built from its fields. -/
@[simp] theorem opField_cmdWord (arg : BitVec 16) (op : BitVec 4) : opField (cmdWord arg op) = op := by
  apply BitVec.eq_of_toNat_eq
  rw [opField_toNat, cmdWord_toNat]
  have := op.isLt
  omega

/-- 30_encoding.md rule R65's clauses (a), (b) and (c), by the fields of the word. -/
theorem illegalWord_iff_fields (w : CmdWord) :
    illegalWord w = true ↔
      ((opField w).toNat = 0x0 ∨ 0x7 ≤ (opField w).toNat) ∨ rsvdField w ≠ 0#12 ∨
        (((opField w).toNat = 0x4 ∨ (opField w).toNat = 0x5) ∧ argField w ≠ 0#16) := by
  simp [illegalWord, BitVec.le_def, ← BitVec.toNat_inj, or_assoc]

/-- Settles O4. -/
theorem illegalWordsExactlyAndInert : Obligations.IllegalWordsExactlyAndInert := by
  intro w
  rw [← illegalWord_iff_fields, ← classify_eq_illegal_iff]
  refine ⟨fun hill => ⟨hill, ?_, fun s => exec_illegal s w⟩, fun hlegal => ?_⟩
  · rw [decode_eq_ok, hill]
    exact ⟨rfl, rfl⟩
  · have hw := word_of_classify w
    cases hc : classify w with
    | illegal => exact absurd hc hlegal
    | put | putIsr | process | reset | getState | setState =>
      rw [hc] at hw
      rw [← hw]
      simp

/-- Two rows that one word fits agree where their masks overlap. -/
theorem rows_agree_of_fits {r r' : OpRow} {w : CmdWord} (h : r.fits w = true) (h' : r'.fits w = true) :
    r.value &&& r'.mask = r'.value &&& r.mask := by
  have hw : w &&& r.mask = r.value := by simpa [OpRow.fits] using h
  have hw' : w &&& r'.mask = r'.value := by simpa [OpRow.fits] using h'
  rw [← hw, ← hw', BitVec.and_assoc, BitVec.and_assoc, BitVec.and_comm r.mask]

/-- Settles O5: any two rows of the table differ where their masks overlap. -/
theorem opcodeRowsDisjoint : Obligations.OpcodeRowsDisjoint := by
  have hdiffer : opcodeTable.Pairwise fun r r' => r.value &&& r'.mask ≠ r'.value &&& r.mask := by decide
  exact hdiffer.imp fun hne _ ⟨h, h'⟩ => hne (rows_agree_of_fits h h')

/-! #### The length of a transaction -/

/-- How many data bytes follow a word (30_encoding.md rule R68). -/
def dataCount (w : CmdWord) : Nat := if classify w = .put ∨ classify w = .putIsr then (argField w).toNat else 0

/-- Data bytes make a transaction exactly with a word other than PROCESS's, and in the number the word fixes. -/
theorem decodes_bytes_iff (w : CmdWord) (data : List Byte) :
    (∃ i, decode ⟨w, .bytes data⟩ = .ok i) ↔ classify w ≠ .process ∧ data.length = dataCount w := by
  simp only [decode_eq_ok, dataCount]
  cases classify w with
  | put | putIsr | process | reset | getState | setState | illegal => simp

/-- Settles O6: the first two clauses are `decodes_bytes_iff`, and a word with RSVD not 0 is illegal. -/
theorem transactionLengthFixedByWord : Obligations.TransactionLengthFixedByWord := by
  refine ⟨fun w data hw => ?_, fun w data hw _ => ?_, fun w data hrsvd => ?_⟩
  · rw [decodes_bytes_iff]
    exact and_iff_right hw
  · rw [decodes_bytes_iff]
    exact fun h => h.1 hw
  · have hill : classify w = .illegal :=
      (classify_eq_illegal_iff w).2 ((illegalWord_iff_fields w).2 (.inr (.inl hrsvd)))
    rw [decodes_bytes_iff]
    simp [hill, dataCount]

/-! #### A frame after noise -/

section
variable (cap : BitVec 16) (base : Nat) {k : Call}

theorem handler_of_ffb (h : k.m.state = .ffb) : handler cap base k = handlerFFB k := by
  simp [handler, h]

theorem handler_of_fsb (h : k.m.state = .fsb) : handler cap base k = handlerFSB k := by
  simp [handler, h]

theorem handler_of_wait (h : k.m.state = .wait) : handler cap base k = handlerWAIT cap base k := by
  simp [handler, h]
end

/-- The marker search passes over noise within its limit and takes the M0 after it (40_frame_sync.md rule R83). -/
theorem handlerFFB_of_noise {k : Call} {noise tail : List Byte} (hrb : k.m.rb = noise ++ k.m.cfg.m0 :: tail)
    (hnoise : ∀ b ∈ noise, b ≠ k.m.cfg.m0)
    (hlimit : (scanStart k.m.cfg.scanScope k.scanCnt).toNat + noise.length ≤ k.m.cfg.threshold.toNat) :
    handlerFFB k =
      { m := { k.m with rb := tail, state := .fsb }
        scanCnt := scanStart k.m.cfg.scanScope k.scanCnt + BitVec.ofNat 17 noise.length + 1#17
        rc := .inProgress } := by
  have hscan := scanMarker_noise _ _ _ noise (k.m.cfg.m0 :: tail) hnoise hlimit
  rw [← hrb, scanMarker, if_pos rfl] at hscan
  simp only [handlerFFB, hscan, if_true]

/-- M1 as the second byte moves STATE to WAIT (40_frame_sync.md rule R85). -/
theorem handlerFSB_of_m1 {k : Call} {tail : List Byte} (hrb : k.m.rb = k.m.cfg.m1 :: tail) :
    handlerFSB k = { k with m := { k.m with rb := tail, state := .wait }, rc := .inProgress } := by
  simp [handlerFSB, State.rbPop_of_cons hrb]

/-- HandlerWAIT uses neither SCAN_CNT nor the code before it. -/
theorem handlerWAIT_mk (cap : BitVec 16) (base : Nat) (s : State) (cnt cnt' : BitVec 17) (rc rc' : ReturnCode) :
    handlerWAIT cap base ⟨s, cnt, rc⟩ = { handlerWAIT cap base ⟨s, cnt', rc'⟩ with scanCnt := cnt } := by
  by_cases h : copyAllowed cap s = true <;> simp [handlerWAIT, h]

/-- HandlerWAIT always ends the call. -/
theorem handlerWAIT_rc_ne_inProgress (cap : BitVec 16) (base : Nat) (k : Call) :
    (handlerWAIT cap base k).rc ≠ .inProgress := by
  unfold handlerWAIT
  split_ifs <;> simp

/-- A marker after noise within the scan limit brings PROCESS to WAIT, at the bytes after the marker. -/
theorem exec_process_of_marker {s : State} {noise tail : List Byte} (cap : BitVec 16) (base : Nat)
    (hs : s.state = .ffb) (hnoise : ∀ b ∈ noise, b ≠ s.cfg.m0) (hlimit : noise.length ≤ s.cfg.threshold.toNat)
    (hrb : s.rb = noise ++ s.cfg.m0 :: s.cfg.m1 :: tail) :
    exec (.process cap base) s = exec (.process cap base) { s with state := .wait, rb := tail } := by
  let w : State := { s with state := .wait, rb := tail }
  obtain ⟨cnt, hfirst⟩ : ∃ cnt, handler cap base ⟨s, 0#17, .inProgress⟩ =
      ⟨{ s with rb := s.cfg.m1 :: tail, state := .fsb }, cnt, .inProgress⟩ :=
    ⟨_, (handler_of_ffb cap base hs).trans (handlerFFB_of_noise hrb hnoise (by simpa using hlimit))⟩
  have hsecond : handler cap base ⟨{ s with rb := s.cfg.m1 :: tail, state := .fsb }, cnt, .inProgress⟩ =
      ⟨w, cnt, .inProgress⟩ := (handler_of_fsb cap base rfl).trans (handlerFSB_of_m1 rfl)
  have hthird : handler cap base ⟨w, cnt, .inProgress⟩ = { processCall cap base w with scanCnt := cnt } := by
    rw [handler_of_wait cap base rfl, processCall_wait rfl]
    exact handlerWAIT_mk cap base w cnt 0#17 .inProgress .inProgress
  have hstop : (handler cap base ⟨w, cnt, .inProgress⟩).rc ≠ .inProgress := by
    rw [handler_of_wait cap base rfl]
    exact handlerWAIT_rc_ne_inProgress cap base _
  have hfuel : s.rbCount + 1 = noise.length + tail.length + 1 + 1 + 1 := by
    simp [State.rbCount, hrb]
    omega
  have hcall : processCall cap base s = { processCall cap base w with scanCnt := cnt } := by
    rw [processCall, hfuel, runDriver_go _ (by rw [hfirst]), hfirst, runDriver_go _ (by rw [hsecond]), hsecond,
      runDriver_stop _ hstop, hthird]
  rw [exec_process, exec_process, execProcess_eq, execProcess_eq, hcall]

/-- PROCESS in WAIT delivers a valid frame whose marker is consumed already. -/
theorem exec_process_wait_delivers {s : State} {payload rest : List Byte} {cap : BitVec 16} (base : Nat)
    (hw : s.state = .wait) (hcap : s.cfg.n.toNat ≤ cap.toNat) (hlen : payload.length = s.cfg.n.toNat - 3)
    (hrb : s.rb = payload ++ crcLow (crc16 payload) :: rest) :
    exec (.process cap base) s = .next ({ s with
      state := .ffb
      rb := rest
      dst := s.dst.writeSeq base (frameOf s.cfg payload)
      destWrites := s.destWrites ++ indexed (frameOf s.cfg payload) }.respond .ok s.cfg.n) := by
  have hn := s.cfg.three_le_n
  have hcount : s.cfg.n.toNat - 2 = (payload ++ [crcLow (crc16 payload)]).length := by simp; omega
  have hsplit : s.rb = (payload ++ [crcLow (crc16 payload)]) ++ rest := by simp [hrb]
  have hroom : s.cfg.n.toNat - 2 ≤ s.rb.length := by rw [hcount, hsplit]; simp
  have hcheck : checksumMatches base (copyFrame base s) = true := by
    rw [checksumMatches_copyFrame base hroom]
    simp [hrb, ← hlen]
  have hframe : copiedFrame s = frameOf s.cfg payload := by
    rw [copiedFrame, hcount, hsplit, List.take_left]; rfl
  have hrest : s.rb.drop (s.cfg.n.toNat - 2) = rest := by
    rw [hcount, hsplit, List.drop_left]
  rw [exec_process_wait_copies base hw hcap hroom, if_pos hcheck, copyFrame_eq, hframe, hrest]

theorem length_frameOf {c : Cfg} {payload : List Byte} (h : payload.length = c.n.toNat - 3) :
    (frameOf c payload).length = c.n.toNat := by
  have hn := c.three_le_n
  simp [frameOf]
  omega

/-- Settles O44: the marker after the noise brings PROCESS to WAIT, and from there it delivers the frame. -/
theorem frameAfterNoiseRecovered : Obligations.FrameAfterNoiseRecovered := by
  intro cap base s noise payload rest hs hcap hnoise hlimit hlen hrb
  have hmarker : s.rb = noise ++ s.cfg.m0 :: s.cfg.m1 :: (payload ++ crcLow (crc16 payload) :: rest) := by
    simp [hrb, frameOf]
  have hframe := length_frameOf hlen
  refine ⟨_, (exec_process_of_marker cap base hs hnoise hlimit hmarker).trans
    (exec_process_wait_delivers base rfl hcap hlen rfl), rfl, rfl, rfl, rfl, rfl, ?_, ?_, rfl⟩
  · rw [← hframe]
    exact Memory.readBytes_writeSeq _ _ _
  · intro a hout
    exact Memory.read_writeSeq_outside _ _ _ _ (by rwa [hframe])

end Sys2Proof.Machine
end

section
/-! ### The marker search rules: HandlerFFB in closed form, HandlerFSB, and noise beyond the scan limit

How a call that breaks ends PROCESS, and what one search does with noise within the scan limit and at it. -/

namespace Sys2Proof.Machine

/-! #### The end of a PROCESS -/

/-- PROCESS always ends with a return code other than InProgress (40_frame_sync.md rules R81, R90). -/
theorem processCall_rc_ne_inProgress (cap : BitVec 16) (base : Nat) (s : State) :
    (processCall cap base s).rc ≠ .inProgress := by
  rcases processCall_cases cap base s with ⟨st, j, -, -, hrc⟩ | ⟨st, j, -, -, -, hrc⟩
  · simp [hrc]
  · rw [hrc]
    split <;> simp

theorem processResult_eq (rc : ReturnCode) (n : BitVec 16) :
    processResult rc n = if rc = .messageCopied then n else 0#16 := by
  cases rc <;> rfl

/-- Settles O22: PROCESS keeps CFG, so the N it answers is the one it started with. -/
theorem processMapsReturnCode : Obligations.ProcessMapsReturnCode := by
  intro cap base s
  refine ⟨processCall_rc_ne_inProgress cap base s, ?_⟩
  rw [exec_process, execProcess_eq, processResult_eq, processCall_cfg]
  rfl

/-- A first handler that breaks ends PROCESS, which answers 0. -/
theorem exec_process_of_brk {cap : BitVec 16} {base : Nat} {s : State} {k : Call}
    (h : handler cap base ⟨s, 0#17, .inProgress⟩ = k) (hrc : k.rc = .brk) :
    exec (.process cap base) s = .next (k.m.respond .ok 0#16) := by
  have hcall : processCall cap base s = k := by
    rw [processCall, runDriver_stop _ (by rw [h, hrc]; simp), h]
  rw [exec_process, execProcess_eq, hcall, hrc]
  rfl

/-! #### The search over noise, within the scan limit and at it -/

/-- How many bytes other than M0 a search examines at most, with `cnt` counted before it; one is always examined
(40_frame_sync.md rule R83). -/
def scanLimit (th : BitVec 16) (cnt : BitVec 17) : Nat := max 1 (th.toNat + 1 - cnt.toNat)

section
variable {m0 : Byte} {th : BitVec 16} {cnt : BitVec 17} {noise : List Byte} (tail : List Byte)

@[simp] theorem scanMarker_nil : scanMarker m0 th cnt [] = ⟨false, cnt, []⟩ := rfl

@[simp] theorem scanMarker_m0 : scanMarker m0 th cnt (m0 :: tail) = ⟨true, cnt + 1#17, tail⟩ := by
  simp [scanMarker]

/-- Noise shorter than the scan limit is counted and passed over. -/
theorem scanMarker_of_lt_limit (hnoise : ∀ b ∈ noise, b ≠ m0) (h : noise.length < scanLimit th cnt) :
    scanMarker m0 th cnt (noise ++ tail) = scanMarker m0 th (cnt + BitVec.ofNat 17 noise.length) tail := by
  unfold scanLimit at h
  obtain hnil | hfits : noise = [] ∨ cnt.toNat + noise.length ≤ th.toNat := by
    rw [← List.length_eq_zero_iff]
    omega
  · simp [hnil]
  · exact scanMarker_noise m0 th cnt noise tail hnoise hfits

/-- A byte other than M0 that brings the count above the threshold ends the search. -/
theorem scanMarker_of_count_gt {b : Byte} (hb : b ≠ m0) (h : th.toNat < (cnt + 1#17).toNat) :
    scanMarker m0 th cnt (b :: tail) = ⟨false, cnt + 1#17, tail⟩ := by
  have hth := th.isLt
  have hgt : th.setWidth 17 < cnt + 1#17 := by
    rw [BitVec.lt_def, BitVec.toNat_setWidth]
    omega
  simp only [scanMarker, if_neg hb, if_pos hgt]

/-- Noise as long as the scan limit ends the search, whatever follows it: all but its last byte is passed over, and
that byte's count is above the threshold. -/
theorem scanMarker_of_eq_limit (hnoise : ∀ b ∈ noise, b ≠ m0) (h : noise.length = scanLimit th cnt)
    (hwrap : cnt.toNat + noise.length < 2 ^ 17) :
    scanMarker m0 th cnt (noise ++ tail) = ⟨false, cnt + BitVec.ofNat 17 noise.length, tail⟩ := by
  have hlimit : scanLimit th cnt = max 1 (th.toNat + 1 - cnt.toNat) := rfl
  obtain rfl | ⟨passed, b, rfl⟩ := noise.eq_nil_or_concat
  · simp at h
    omega
  · simp only [List.concat_eq_append, List.length_append, List.length_singleton] at h hwrap hnoise ⊢
    have hlast : cnt + BitVec.ofNat 17 passed.length + 1#17 = cnt + BitVec.ofNat 17 (passed.length + 1) := by
      rw [BitVec.add_assoc, BitVec.ofNat_add]
    have hcount : (cnt + BitVec.ofNat 17 (passed.length + 1)).toNat = cnt.toNat + (passed.length + 1) := by
      simp
      omega
    rw [List.append_assoc, scanMarker_of_lt_limit _ (fun x hx => hnoise x (by simp [hx])) (by omega),
      List.singleton_append, scanMarker_of_count_gt _ (hnoise b (by simp)) (by rw [hlast]; omega), hlast]
end

/-! #### HandlerFFB -/

/-- The count a marker search starts with (40_frame_sync.md rule R84). -/
def Call.searchStart (k : Call) : BitVec 17 := scanStart k.m.cfg.scanScope k.scanCnt

section
variable {k : Call} {cnt : BitVec 17} {rest : List Byte}

theorem handlerFFB_of_found (h : scanMarker k.m.cfg.m0 k.m.cfg.threshold k.searchStart k.m.rb = ⟨true, cnt, rest⟩) :
    handlerFFB k = { m := { k.m with rb := rest, state := .fsb }, scanCnt := cnt, rc := .inProgress } := by
  rw [Call.searchStart] at h
  simp [handlerFFB, h]

theorem handlerFFB_of_not_found
    (h : scanMarker k.m.cfg.m0 k.m.cfg.threshold k.searchStart k.m.rb = ⟨false, cnt, rest⟩) :
    handlerFFB k = { m := { k.m with rb := rest }, scanCnt := cnt, rc := .brk } := by
  rw [Call.searchStart] at h
  simp [handlerFFB, h]
end

/-- The bytes before the first M0, as many of them as asked for, are noise. -/
theorem ne_of_mem_take_noise {m0 : Byte} {rb : List Byte} {j : Nat} (hj : j ≤ (rb.takeWhile (· != m0)).length) :
    ∀ b ∈ rb.take j, b ≠ m0 := by
  intro b hb
  have hprefix : rb.take j <+: rb.takeWhile (· != m0) :=
    List.prefix_of_prefix_length_le (List.take_prefix j rb) (List.takeWhile_prefix _)
      ((List.length_take_le j rb).trans hj)
  simpa using List.mem_takeWhile_imp (hprefix.subset hb)

/-- The byte after the noise is M0. -/
theorem drop_noise_of_lt {m0 : Byte} {rb : List Byte} (h : (rb.takeWhile (· != m0)).length < rb.length) :
    rb.drop (rb.takeWhile (· != m0)).length = m0 :: rb.drop ((rb.takeWhile (· != m0)).length + 1) := by
  induction rb with
  | nil => simp at h
  | cons b rb ih =>
    by_cases hb : b = m0
    · simp [hb]
    · simpa [hb] using ih (by simpa [hb] using h)

/-- Settles O24: the three clauses are the search at its limit, the search that runs out of bytes and the search that
passes over the noise to an M0. -/
theorem markerSearchClosedForm : Obligations.MarkerSearchClosedForm := by
  intro k start noise limit hwrap
  have hstart : start = k.searchStart.toNat := by
    simp only [start, Call.searchStart, scanStart]
    cases k.m.cfg.scanScope <;> rfl
  have hlimit : limit = scanLimit k.m.cfg.threshold k.searchStart := by simp only [limit, scanLimit, hstart]
  have hcnt : ∀ j, k.searchStart + BitVec.ofNat 17 j = BitVec.ofNat 17 (start + j) := by
    intro j
    rw [hstart, BitVec.ofNat_add, BitVec.ofNat_toNat, BitVec.setWidth_eq]
  have hle : noise ≤ k.m.rb.length := (List.takeWhile_sublist _).length_le
  have hpass : noise < limit → scanMarker k.m.cfg.m0 k.m.cfg.threshold k.searchStart k.m.rb =
      scanMarker k.m.cfg.m0 k.m.cfg.threshold (BitVec.ofNat 17 (start + noise)) (k.m.rb.drop noise) := by
    intro hshort
    have hlen : (k.m.rb.take noise).length = noise := List.length_take_of_le hle
    have hscan := scanMarker_of_lt_limit (th := k.m.cfg.threshold) (cnt := k.searchStart) (k.m.rb.drop noise)
      (ne_of_mem_take_noise (le_refl noise)) (by omega)
    rwa [List.take_append_drop, hlen, hcnt] at hscan
  refine ⟨fun hlong => ?_, fun hshort hall => ?_, fun hshort hmore => ?_⟩
  · have hlen : (k.m.rb.take limit).length = limit := List.length_take_of_le (by omega)
    have hscan := scanMarker_of_eq_limit (k.m.rb.drop limit) (ne_of_mem_take_noise hlong)
      (hlen.trans hlimit) (by omega)
    rw [List.take_append_drop, hlen, hcnt] at hscan
    exact handlerFFB_of_not_found hscan
  · have hend : k.m.rb.drop noise = [] := by rw [hall, List.drop_length]
    exact handlerFFB_of_not_found ((hpass hshort).trans (by rw [hend, scanMarker_nil]))
  · have hm0 : k.m.rb.drop noise = k.m.cfg.m0 :: k.m.rb.drop (noise + 1) := drop_noise_of_lt hmore
    rw [BitVec.ofNat_add (x := start + noise)]
    exact handlerFFB_of_found ((hpass hshort).trans (by rw [hm0, scanMarker_m0]))

/-- Settles O45: the first THRESHOLD + 1 bytes of the noise are the scan limit of a search that counts from 0. -/
theorem longNoiseTakesThresholdPlusOne : Obligations.LongNoiseTakesThresholdPlusOne := by
  intro cap base s noise rest hs hnoise hlong hrb
  have hth := s.cfg.threshold.isLt
  have hlen : (noise.take (s.cfg.threshold.toNat + 1)).length = s.cfg.threshold.toNat + 1 :=
    List.length_take_of_le hlong
  have hlimit : scanLimit s.cfg.threshold 0#17 = s.cfg.threshold.toNat + 1 := by simp [scanLimit]
  have hscan := scanMarker_of_eq_limit (noise.drop (s.cfg.threshold.toNat + 1) ++ rest)
    (fun b hb => hnoise b (List.mem_of_mem_take hb)) (hlen.trans hlimit.symm) (by rw [hlen]; simp; omega)
  rw [← List.append_assoc, List.take_append_drop, ← hrb, ← scanStart_zero s.cfg.scanScope] at hscan
  exact exec_process_of_brk ((handler_of_ffb cap base hs).trans (handlerFFB_of_not_found hscan)) rfl

/-! #### HandlerFSB -/

theorem handlerFSB_of_nil {k : Call} (hrb : k.m.rb = []) : handlerFSB k = { k with rc := .brk } := by
  simp [handlerFSB, State.rbPop_eq_none_iff.2 hrb]

/-- A second byte other than M1 moves STATE back to FFB (40_frame_sync.md rules R85, R93). -/
theorem handlerFSB_of_ne_m1 {k : Call} {b : Byte} {tail : List Byte} (hrb : k.m.rb = b :: tail)
    (hb : b ≠ k.m.cfg.m1) :
    handlerFSB k = { k with m := { k.m with rb := tail, state := .ffb }, rc := .inProgress } := by
  simp [handlerFSB, State.rbPop_of_cons hrb, hb]

/-- Settles O26. -/
theorem secondByteHandler : Obligations.SecondByteHandler := by
  refine fun k => ⟨handlerFSB_of_nil, fun b rest hrb => ⟨?_, handlerFSB_of_ne_m1 hrb⟩⟩
  rintro rfl
  exact handlerFSB_of_m1 hrb

end Sys2Proof.Machine
end

section
/-! ### The copy rules: what the destination holds after a copy, the checksum test, and frames without room

HandlerWAIT without and with a copy, then PROCESS on a frame with a wrong checksum byte and on one met without room. -/

namespace Sys2Proof.Machine

/-! #### HandlerWAIT without a copy -/

theorem handlerWAIT_of_not_copyAllowed {cap : BitVec 16} {k : Call} (base : Nat) (h : ¬ copyAllowed cap k.m = true) :
    handlerWAIT cap base k = { k with rc := .brk } := by
  simp [handlerWAIT, h]

/-- PROCESS in WAIT without room or bytes answers 0 and changes nothing else (40_frame_sync.md rule R86). -/
theorem exec_process_wait_blocked {cap : BitVec 16} {s : State} (base : Nat) (hw : s.state = .wait)
    (h : cap.toNat < s.cfg.n.toNat ∨ s.rb.length < s.cfg.n.toNat - 2) :
    exec (.process cap base) s = .next (s.respond .ok 0#16) := by
  have ha : ¬ copyAllowed cap s = true := by
    rw [copyAllowed_iff]
    omega
  exact exec_process_of_brk ((handler_of_wait cap base hw).trans (handlerWAIT_of_not_copyAllowed base ha)) rfl

/-- Settles O28. -/
theorem copyNeedsRoomAndBytes : Obligations.CopyNeedsRoomAndBytes :=
  fun _ base _ hw h => exec_process_wait_blocked base hw h

/-! #### The state after a copy -/

section
variable (base : Nat) (s : State)
@[simp] theorem copyFrame_cfg : (copyFrame base s).cfg = s.cfg := by rw [copyFrame_eq]
@[simp] theorem copyFrame_state : (copyFrame base s).state = .ffb := by rw [copyFrame_eq]
@[simp] theorem copyFrame_rb : (copyFrame base s).rb = s.rb.drop (s.cfg.n.toNat - 2) := by rw [copyFrame_eq]
@[simp] theorem copyFrame_port : (copyFrame base s).port = s.port := by rw [copyFrame_eq]
@[simp] theorem copyFrame_destWrites :
    (copyFrame base s).destWrites = s.destWrites ++ indexed (copiedFrame s) := by rw [copyFrame_eq]
end

section
variable {s : State} (base : Nat) (hrb : s.cfg.n.toNat - 2 ≤ s.rb.length)
include hrb

/-- The destination's bytes 0..N-1 read as the frame copied. -/
theorem read_copyFrame {i : Nat} (hi : i < s.cfg.n.toNat) :
    (copyFrame base s).dst.read (base + i) = (copiedFrame s)[i]? := by
  have hlen : i < (copiedFrame s).length := by rwa [length_copiedFrame hrb]
  rw [copyFrame_eq, List.getElem?_eq_getElem hlen]
  exact Memory.read_writeSeq_inside _ _ _ _ hlen

theorem readBytes_copyFrame :
    (copyFrame base s).dst.readBytes base s.cfg.n.toNat = some (copiedFrame s) := by
  rw [copyFrame_eq, ← length_copiedFrame hrb]
  exact Memory.readBytes_writeSeq _ _ _

/-- The destination's byte 2 + i reads as the i-th byte consumed. -/
theorem read_copyFrame_consumed {i : Nat} (hi : i < s.cfg.n.toNat - 2) :
    (copyFrame base s).dst.read (base + 2 + i) = s.rb[i]? := by
  rw [show base + 2 + i = base + (i + 2) by omega, read_copyFrame base hrb (by omega)]
  simp [copiedFrame, hi]

/-- The payload reads as the first N - 3 bytes consumed. -/
theorem readBytes_copyFrame_payload :
    (copyFrame base s).dst.readBytes (base + 2) (s.cfg.n.toNat - 3) = some (s.rb.take (s.cfg.n.toNat - 3)) := by
  refine Memory.readBytes_eq_some.2 ⟨List.length_take_of_le (by omega), fun i hi => ?_⟩
  have hi' : i < s.cfg.n.toNat - 3 ∧ i < s.rb.length := by simpa using hi
  rw [read_copyFrame_consumed base hrb (by omega), List.getElem_take, List.getElem?_eq_getElem]

/-- A copy changes no byte of memory but the destination's bytes 0..N-1. -/
theorem sameOutside_copyFrame : s.dst.sameOutside (copyFrame base s).dst base s.cfg.n.toNat := by
  intro a hout
  rw [copyFrame_eq]
  exact Memory.read_writeSeq_outside _ _ _ _ (by rwa [length_copiedFrame hrb])
end

/-- Settles O29. -/
theorem copyWritesFrame : Obligations.CopyWritesFrame := by
  intro cap base s hw hcap hrb
  have hn := s.cfg.three_le_n
  exact ⟨_, exec_process_wait_copies base hw hcap hrb, copyFrame_state base s, copyFrame_rb base s,
    copyFrame_cfg base s, copyFrame_port base s, read_copyFrame base hrb (i := 0) (by omega),
    read_copyFrame base hrb (i := 1) (by omega), fun i => read_copyFrame_consumed base hrb,
    sameOutside_copyFrame base hrb, copyFrame_destWrites base s⟩

/-- Settles O30: the bytes read back are those consumed, and `checksumMatches_copyFrame` compares just these. -/
theorem checksumOverReadBack : Obligations.ChecksumOverReadBack := by
  intro cap base s hw hcap hrb
  have hn := s.cfg.three_le_n
  have hlast : s.cfg.n.toNat - 3 < s.rb.length := by omega
  refine ⟨_, s.rb.take (s.cfg.n.toNat - 3), s.rb[s.cfg.n.toNat - 3], exec_process_wait_copies base hw hcap hrb,
    readBytes_copyFrame_payload base hrb, ?_, ?_⟩
  · rw [show base + (s.cfg.n.toNat - 1) = base + 2 + (s.cfg.n.toNat - 3) by omega, ← List.getElem?_eq_getElem hlast]
    exact read_copyFrame_consumed base hrb (by omega)
  · rw [State.respond_response, checksumMatches_copyFrame base hrb]
    simp only [beq_iff_eq]

/-! #### A frame with a wrong checksum byte -/

/-- A copy of `body`, where it is the next N - 2 bytes of RB, writes the marker and `body`. -/
theorem copiedFrame_of_append {s : State} {body rest : List Byte} (hlen : body.length = s.cfg.n.toNat - 2)
    (hrb : s.rb = body ++ rest) : copiedFrame s = s.cfg.m0 :: s.cfg.m1 :: body := by
  rw [copiedFrame, hrb, ← hlen, List.take_left]

/-- Settles O34: the marker brings PROCESS to WAIT, and there the copy takes the frame whatever its checksum byte. -/
theorem mismatchConsumesFrame : Obligations.MismatchConsumesFrame := by
  intro cap base s payload rest chk hs hcap hlen hchk hrb
  have hn := s.cfg.three_le_n
  let w : State := { s with state := .wait, rb := (payload ++ [chk]) ++ rest }
  have hmarker : exec (.process cap base) s = exec (.process cap base) w :=
    exec_process_of_marker (noise := []) cap base hs (by simp) (by simp) (by simpa using hrb)
  have hbody : (payload ++ [chk]).length = w.cfg.n.toNat - 2 := by simp [w]; omega
  have hroom : w.cfg.n.toNat - 2 ≤ w.rb.length := by simp only [← hbody, w, List.length_append]; omega
  have hcheck : checksumMatches base (copyFrame base w) = false := by
    rw [checksumMatches_copyFrame base hroom]
    simp [w, ← hlen, Ne.symm hchk]
  refine ⟨_, hmarker.trans (exec_process_wait_copies base rfl hcap hroom), ?_, copyFrame_state base w, ?_, ?_⟩
  · simp [hcheck]
  · rw [State.respond_rb, copyFrame_rb, ← hbody]
    exact List.drop_left
  · exact (readBytes_copyFrame base hroom).trans (congrArg some (copiedFrame_of_append hbody rfl))

/-! #### A frame met without room -/

/-- Settles O46: the marker brings the first PROCESS to WAIT, where it has no room; the second one starts there. -/
theorem undersizedDestinationKeepsFrame : Obligations.UndersizedDestinationKeepsFrame := by
  intro cap cap' base base' s payload rest hs hcap hcap' hlen hrb
  let w : State := { s with state := .wait, rb := payload ++ crcLow (crc16 payload) :: rest }
  have hmarker : exec (.process cap base) s = exec (.process cap base) w :=
    exec_process_of_marker (noise := []) cap base hs (by simp) (by simp) (by simp [hrb, frameOf])
  have hkept : w.rb = (frameOf s.cfg payload).drop 2 ++ rest := by simp [w, frameOf]
  refine ⟨w.respond .ok 0#16, _, hmarker.trans (exec_process_wait_blocked base rfl (.inl hcap)), ?_,
    exec_process_wait_delivers base' (s := w.respond .ok 0#16) rfl hcap' hlen rfl, rfl, rfl, rfl, ?_⟩
  · rw [← hkept]; rfl
  · rw [← length_frameOf hlen]
    exact Memory.readBytes_writeSeq _ _ _

end Sys2Proof.Machine
end

section
/-! ### Chunked delivery: PROCESS after each piece of a frame acts as PROCESS on all the pieces at once

Where PROCESS stands after the first bytes of a frame (`State.awaiting`), that further bytes add to these as if all had
come together, and the run that PUTs a frame piece by piece. -/

namespace Sys2Proof.Machine

/-! #### PROCESS on an empty RB, and on a marker in two parts -/

/-- With RB empty PROCESS answers 0 and changes nothing else, in every STATE. -/
theorem exec_process_of_empty (cap : BitVec 16) (base : Nat) {s : State} (hrb : s.rb = []) :
    exec (.process cap base) s = .next (s.respond .ok 0#16) := by
  have hn := s.cfg.three_le_n
  cases hs : s.state with
  | ffb =>
    have hsearch : handlerFFB ⟨s, 0#17, .inProgress⟩ = ⟨{ s with rb := [] }, _, .brk⟩ :=
      handlerFFB_of_not_found (by rw [hrb, scanMarker_nil])
    rw [← hrb] at hsearch
    exact exec_process_of_brk ((handler_of_ffb cap base hs).trans hsearch) rfl
  | fsb => exact exec_process_of_brk ((handler_of_fsb cap base hs).trans (handlerFSB_of_nil hrb)) rfl
  | wait => exact exec_process_wait_blocked base hs (.inr (by simp [hrb]; omega))

/-- An M0 that nothing follows is consumed, and PROCESS stops in FSB. -/
theorem exec_process_of_lone_m0 (cap : BitVec 16) (base : Nat) {s : State} (hs : s.state = .ffb)
    (hrb : s.rb = [s.cfg.m0]) :
    exec (.process cap base) s = .next ({ s with state := .fsb, rb := [] }.respond .ok 0#16) := by
  obtain ⟨cnt, hfirst⟩ : ∃ cnt, handler cap base ⟨s, 0#17, .inProgress⟩ =
      ⟨{ s with rb := [], state := .fsb }, cnt, .inProgress⟩ :=
    ⟨_, (handler_of_ffb cap base hs).trans (handlerFFB_of_noise (noise := []) hrb (by simp) (by simp))⟩
  have hsecond : handler cap base ⟨{ s with rb := [], state := .fsb }, cnt, .inProgress⟩ =
      ⟨{ s with rb := [], state := .fsb }, cnt, .brk⟩ :=
    (handler_of_fsb cap base rfl).trans (handlerFSB_of_nil rfl)
  have hcall : processCall cap base s = ⟨{ s with rb := [], state := .fsb }, cnt, .brk⟩ := by
    rw [processCall, runDriver_go _ (by rw [hfirst]), hfirst, State.rbCount, hrb, List.length_singleton,
      runDriver_stop 0 (by rw [hsecond]; simp), hsecond]
  rw [exec_process, execProcess_eq, hcall]
  rfl

/-- In FSB the M1 brings PROCESS to WAIT, at the bytes after it. -/
theorem exec_process_of_m1 (cap : BitVec 16) (base : Nat) {s : State} {tail : List Byte} (hs : s.state = .fsb)
    (hrb : s.rb = s.cfg.m1 :: tail) :
    exec (.process cap base) s = exec (.process cap base) { s with state := .wait, rb := tail } := by
  have hgo := processCall_go ((handler_of_fsb cap base hs).trans (handlerFSB_of_m1 hrb))
  rw [exec_process, exec_process, execProcess_eq, execProcess_eq, hgo]

/-! #### A frame received in part -/

/-- The STATE in which PROCESS awaits the byte after the frame's first bytes `received`. -/
def awaitingState : List Byte → ParserState
  | [] => .ffb
  | [_] => .fsb
  | _ :: _ :: _ => .wait

/-- The engine that has processed a frame's first bytes `received`: RB holds those after the marker. -/
def State.awaiting (s : State) (received : List Byte) : State :=
  { s with state := awaitingState received, rb := received.drop 2 }

/-- The engine after a frame's delivery, with the transactions `later` still on its port. -/
def State.delivered (s : State) (base : Nat) (payload : List Byte) (later : List Transaction) : State :=
  { s with
    state := .ffb
    rb := []
    dst := s.dst.writeSeq base (frameOf s.cfg payload)
    destWrites := indexed (frameOf s.cfg payload)
    response := some ⟨.ok, s.cfg.n⟩
    port := later }

theorem State.awaiting_nil {s : State} (hs : s.state = .ffb) (hrb : s.rb = []) : s.awaiting [] = s := by
  cases s
  cases hs
  cases hrb
  rfl

section
variable (cap : BitVec 16) (base : Nat) (s : State)

/-- PROCESS gains nothing from a frame still incomplete. -/
theorem exec_process_awaiting {received : List Byte} (h : received.length < s.cfg.n.toNat) :
    exec (.process cap base) (s.awaiting received) = .next ((s.awaiting received).respond .ok 0#16) := by
  match received with
  | [] => exact exec_process_of_empty cap base rfl
  | [_] => exact exec_process_of_empty cap base rfl
  | m0 :: m1 :: body =>
    have hshort : body.length < s.cfg.n.toNat - 2 := by
      simp only [List.length_cons] at h
      omega
    exact exec_process_wait_blocked base rfl (.inr hshort)

/-- Bytes that come after a frame's first bytes act as if all had come together. -/
theorem exec_process_awaiting_append {received c after body : List Byte}
    (hframe : received ++ c ++ after = s.cfg.m0 :: s.cfg.m1 :: body) :
    exec (.process cap base) { s.awaiting received with rb := (s.awaiting received).rb ++ c } =
      exec (.process cap base) (s.awaiting (received ++ c)) := by
  match received, c with
  | [], [] => rfl
  | [], [b] =>
    obtain ⟨rfl, -⟩ := List.cons.inj hframe
    exact (exec_process_of_lone_m0 cap base rfl rfl).trans (exec_process_of_empty cap base rfl).symm
  | [], b :: b' :: tail =>
    obtain ⟨rfl, htail⟩ := List.cons.inj hframe
    obtain ⟨rfl, -⟩ := List.cons.inj htail
    exact exec_process_of_marker (noise := []) cap base rfl (by simp) (by simp) rfl
  | [b], [] => rfl
  | [b], b' :: tail =>
    obtain ⟨-, htail⟩ := List.cons.inj hframe
    obtain ⟨rfl, -⟩ := List.cons.inj htail
    exact exec_process_of_m1 cap base rfl rfl
  | b :: b' :: tail, c => rfl
end

/-- PROCESS with room delivers a frame received whole. -/
theorem exec_process_awaiting_frame {cap : BitVec 16} (base : Nat) {s : State} {payload : List Byte}
    (hcap : s.cfg.n.toNat ≤ cap.toNat) (hlen : payload.length = s.cfg.n.toNat - 3) (hwrites : s.destWrites = []) :
    exec (.process cap base) (s.awaiting (frameOf s.cfg payload)) = .next (s.delivered base payload s.port) := by
  rw [exec_process_wait_delivers (s := s.awaiting (frameOf s.cfg payload)) (rest := []) base rfl hcap hlen rfl]
  simp [State.awaiting, State.delivered, State.respond, hwrites]

/-- The next bytes of a frame fit into RB, if they fit into an empty one: an incomplete frame leaves no more than N - 2
bytes to hold (00_scope.md rule R4). -/
theorem State.awaiting_fits {s : State} {received c : List Byte} (hc : c.length ≤ s.cfg.cap.toNat)
    (h : (received ++ c).length ≤ s.cfg.n.toNat) :
    (s.awaiting received).rb.length + c.length ≤ s.cfg.cap.toNat := by
  have hroom := s.cfg.n_sub_two_le_cap
  simp only [State.awaiting, List.length_drop, List.length_append] at h ⊢
  omega

/-! #### The run -/

/-- The commands that PUT each piece and issue PROCESS after it. -/
def chunkCommands (cap : BitVec 16) (base : Nat) (chunks : List (List Byte)) : List Transaction :=
  chunks.flatMap fun c => [encode (.put (BitVec.ofNat 16 c.length) c), encode (.process cap base)]

@[simp] theorem chunkCommands_cons (cap : BitVec 16) (base : Nat) (c : List Byte) (chunks : List (List Byte)) :
    chunkCommands cap base (c :: chunks) =
      encode (.put (BitVec.ofNat 16 c.length) c) :: encode (.process cap base) :: chunkCommands cap base chunks :=
  rfl

theorem run_succ {s t : State} (h : step s = .next t) (k : Nat) :
    Sys2Proof.core.run (k + 1) s = Sys2Proof.core.run k t := by
  have hcore : Sys2Proof.core.step s = .next t := h
  simp only [Host.Core.run, hcore]

/-- A well-formed command at the front of the port is the one that runs. -/
theorem step_of_encode {s : State} {i : Instr} {later : List Transaction} (hi : i.wellFormed = true)
    (hp : s.port = encode i :: later) : step s = exec i (s.accept later) :=
  step_of_decode_ok hp (decodeInvertsEncode i hi)

/-- A PUT of bytes that fit and a PROCESS are two steps of a run, the second from the bytes appended to RB. -/
theorem run_put_process {s t : State} {c : List Byte} {cap : BitVec 16} {base : Nat} {later : List Transaction}
    (hp : s.port = encode (.put (BitVec.ofNat 16 c.length) c) :: encode (.process cap base) :: later)
    (hfit : s.rb.length + c.length ≤ s.cfg.cap.toNat)
    (h : exec (.process cap base)
      { (s.accept later).respond .ok (BitVec.ofNat 16 c.length) with rb := s.rb ++ c } = .next t) (k : Nat) :
    Sys2Proof.core.run (k + 2) s = Sys2Proof.core.run k t := by
  have hcap16 := s.cfg.cap.isLt
  have hlen : c.length = (BitVec.ofNat 16 c.length).toNat := by
    rw [BitVec.toNat_ofNat]
    omega
  have hput : step s = .next _ :=
    (step_of_encode (by simpa [Instr.wellFormed] using hlen) hp).trans
      (exec_put_of_fits hlen (by rw [← hlen]; exact hfit))
  rw [run_succ hput, run_succ ((step_of_encode rfl rfl).trans h)]

/-- The run that PUTs the rest of a frame piece by piece delivers the frame, by induction on the pieces. -/
theorem run_chunkCommands {cap : BitVec 16} (base : Nat) {payload : List Byte} (later : List Transaction)
    (chunks : List (List Byte)) {s : State} {received : List Byte} (hcap : s.cfg.n.toNat ≤ cap.toNat)
    (hlen : payload.length = s.cfg.n.toNat - 3) (hchunks : ∀ c ∈ chunks, c ≠ [] ∧ c.length ≤ s.cfg.cap.toNat)
    (hframe : received ++ chunks.flatten = frameOf s.cfg payload) (hpart : received.length < s.cfg.n.toNat)
    (hport : s.port = chunkCommands cap base chunks ++ later) :
    Sys2Proof.core.run (2 * chunks.length) (s.awaiting received) = .next (s.delivered base payload later) := by
  have hN := length_frameOf hlen
  induction chunks generalizing s received with
  | nil =>
    rw [List.flatten_nil, List.append_nil] at hframe
    rw [hframe] at hpart
    omega
  | cons c chunks ih =>
    rw [List.forall_mem_cons] at hchunks
    obtain ⟨⟨-, hc⟩, hrest⟩ := hchunks
    rw [List.flatten_cons, ← List.append_assoc] at hframe
    have hsum : (received ++ c).length + chunks.flatten.length = s.cfg.n.toNat := by
      rw [← List.length_append, hframe, hN]
    let u : State := (s.accept (chunkCommands cap base chunks ++ later)).respond .ok (BitVec.ofNat 16 c.length)
    have happend := exec_process_awaiting_append cap base u hframe
    have hrun : ∀ t, exec (.process cap base) (u.awaiting (received ++ c)) = .next t →
        Sys2Proof.core.run (2 * (c :: chunks).length) (s.awaiting received) =
          Sys2Proof.core.run (2 * chunks.length) t := fun t ht =>
      run_put_process (s := s.awaiting received) hport (State.awaiting_fits hc (by omega)) (happend.trans ht) _
    by_cases hmore : (received ++ c).length < s.cfg.n.toNat
    · rw [hrun _ (exec_process_awaiting cap base u hmore)]
      exact ih (s := u.respond .ok 0#16) hcap hlen hrest hframe hmore rfl hN
    · have hnil : chunks.flatten = [] := List.length_eq_zero_iff.1 (by omega)
      obtain rfl : chunks = [] := List.eq_nil_iff_forall_not_mem.2 fun c' hc' =>
        (hrest c' hc').1 (List.flatten_eq_nil_iff.1 hnil c' hc')
      rw [List.flatten_nil, List.append_nil] at hframe
      rw [hframe] at hrun
      exact hrun _ (exec_process_awaiting_frame base (s := u) hcap hlen rfl)

/-- Settles O47: the pieces are delivered from the state that has received nothing yet. -/
theorem chunkedDeliveryEqualsBulk : Obligations.ChunkedDeliveryEqualsBulk := by
  intro cap base s payload chunks later hs hrb hcap hlen hchunks hframe hport
  have hn := s.cfg.three_le_n
  have hN := length_frameOf hlen
  have hrun := run_chunkCommands base later chunks (received := []) hcap hlen hchunks hframe (by simp; omega) hport
  rw [State.awaiting_nil hs hrb] at hrun
  refine ⟨_, hrun, rfl, rfl, rfl, rfl, rfl, ?_, ?_⟩
  · rw [← hN]
    exact Memory.readBytes_writeSeq _ _ _
  · intro a hout
    exact Memory.read_writeSeq_outside _ _ _ _ (by rwa [hN])

end Sys2Proof.Machine
end

section
/-! ### The CRC rules: one bit in unsigned arithmetic, the order of the bytes, and the low byte's verdict on a frame -/

namespace Sys2Proof.Machine

/-! #### One bit of the CRC -/

/-- The bit that CrcBit shifts out is set in the upper half of the register's values. -/
theorem getLsbD_fifteen_iff (c : BitVec 16) : c.getLsbD 15 = true ↔ 0x8000 ≤ c.toNat := by
  rw [BitVec.getLsbD_last c, decide_eq_true_iff]

theorem toNat_shiftLeft_one (c : BitVec 16) : (c <<< 1).toNat = 2 * c.toNat % 0x10000 := by
  rw [BitVec.toNat_shiftLeft, Nat.shiftLeft_eq, pow_one, mul_comm]

/-- Settles O35: without the carry the doubled value fits in 16 bits, so the shift loses nothing. -/
theorem crcBitArithmetic : Obligations.CrcBitArithmetic := by
  intro c
  by_cases h : 0x8000 ≤ c.toNat
  · rw [crcBit, if_pos ((getLsbD_fifteen_iff c).2 h), if_pos h, BitVec.toNat_xor, toNat_shiftLeft_one]
    rfl
  · rw [crcBit, if_neg (mt (getLsbD_fifteen_iff c).1 h), if_neg h, toNat_shiftLeft_one]
    exact Nat.mod_eq_of_lt (by omega)

/-! #### The bytes of a CRC -/

@[simp] theorem crc16_nil : crc16 [] = crcInit := rfl

@[simp] theorem crc16_append_singleton (p : List Byte) (b : Byte) : crc16 (p ++ [b]) = crcByte (crc16 p) b :=
  List.foldl_concat crcByte crcInit b p

/-- Settles O36. -/
theorem crcFeedsBytesInOrder : Obligations.CrcFeedsBytesInOrder :=
  ⟨crc16_nil, crc16_append_singleton⟩

/-! #### The verdict on a frame -/

/-- A payload and its checksum byte are the N - 2 bytes that a copy takes. -/
theorem n_sub_two_le_of_append {s : State} {payload rest : List Byte} {chk : Byte}
    (hlen : payload.length = s.cfg.n.toNat - 3) (hrb : s.rb = payload ++ chk :: rest) :
    s.cfg.n.toNat - 2 ≤ s.rb.length := by
  rw [hrb, List.length_append, List.length_cons]
  omega

/-- After a copy of the payload and its checksum byte, the test compares that byte with the CRC's low byte. -/
theorem checksumMatches_copyFrame_of_append {s : State} {payload rest : List Byte} {chk : Byte} (base : Nat)
    (hlen : payload.length = s.cfg.n.toNat - 3) (hrb : s.rb = payload ++ chk :: rest) :
    checksumMatches base (copyFrame base s) = (crcLow (crc16 payload) == chk) := by
  rw [checksumMatches_copyFrame base (n_sub_two_le_of_append hlen hrb)]
  simp [hrb, ← hlen]

/-- PROCESS in WAIT answers N to a payload whose checksum byte is the CRC's low byte, and 0 to any other. -/
theorem exec_process_wait_answer {cap : BitVec 16} {s : State} {payload rest : List Byte} {chk : Byte} (base : Nat)
    (hw : s.state = .wait) (hcap : s.cfg.n.toNat ≤ cap.toNat) (hlen : payload.length = s.cfg.n.toNat - 3)
    (hrb : s.rb = payload ++ chk :: rest) :
    exec (.process cap base) s = .next ((copyFrame base s).respond .ok
      (if crcLow (crc16 payload) = chk then s.cfg.n else 0#16)) := by
  rw [exec_process_wait_copies base hw hcap (n_sub_two_le_of_append hlen hrb),
    checksumMatches_copyFrame_of_append base hlen hrb]
  simp only [beq_iff_eq]

/-- N is at least 3 (00_scope.md rule R4), so the two answers of PROCESS differ. -/
theorem cfg_n_ne_zero (c : Cfg) : c.n ≠ 0#16 := by
  intro h
  have hn := c.three_le_n
  simp [h] at hn

/-- Settles O31: `exec_process_wait_answer`, whose two answers differ. -/
theorem lowByteDecides : Obligations.LowByteDecides := by
  intro cap base s payload rest hw hcap hlen chk hrb
  have hn := cfg_n_ne_zero s.cfg
  refine ⟨_, exec_process_wait_answer base hw hcap hlen hrb, ?_⟩
  rw [State.respond_response, ← crcLow]
  by_cases h : crcLow (crc16 payload) = chk
  · simp [h, hn]
  · simp [h, hn.symm]

end Sys2Proof.Machine
end

section
/-! ### The facade rules: where a step stops, and what PUT, PUT_ISR, RESET, SET_STATE and GET_STATE answer

The facade's words as shifts, the decoder's refusal of a wrong data count and the numbers that stand for states, then
the statements of 42_facade.md. -/

namespace Sys2Proof.Machine

/-! #### Where a step stops -/

/-- Settles O12: every command that decodes is answered (`exec_answers`), so only the decoder stops a step. -/
theorem stepStopsOnlyOnMalformedTransactions : Obligations.StepStopsOnlyOnMalformedTransactions := by
  intro s
  cases hp : s.port with
  | nil => exact .inl ⟨s, step_of_port_nil hp⟩
  | cons tr later =>
    cases hd : decode tr with
    | ok i =>
      obtain ⟨t, -, ht, -⟩ := exec_answers i (s.accept later)
      exact .inl ⟨t, (step_of_decode_ok hp hd).trans ht⟩
    | error e => exact .inr ⟨tr, later, e, rfl, hd, step_of_decode_error hp hd⟩

/-- Data bytes in another number than the word fixes are refused as that (30_encoding.md rule R68). -/
theorem dataOf_bytes_of_length_ne {data : List Byte} {n : Nat} (h : data.length ≠ n) :
    dataOf (.bytes data) n = .error .dataCount := by
  simp [dataOf, hasCount_iff, h]

/-- Settles O8: the readers of both words take ARG data bytes or answer the refusal. -/
theorem wrongDataCountHasNoMove : Obligations.WrongDataCountHasNoMove := by
  intro s w data later hw hlen hp
  have hdata := dataOf_bytes_of_length_ne hlen
  have hd : decode ⟨w, .bytes data⟩ = .error .dataCount := by
    rcases hw with hw | hw <;> simp [decode, hw, hdata, Except.map]
  exact step_of_decode_error hp hd

/-! #### PUT and PUT_ISR -/

/-- A command word is its ARG above its OP (30_encoding.md rule R61). -/
theorem cmdWord_eq_shift (arg : BitVec 16) (op : BitVec 4) :
    cmdWord arg op = arg.setWidth 32 <<< 16 ||| op.setWidth 32 := by
  apply BitVec.eq_of_toNat_eq
  have harg : (arg.setWidth 32 <<< 16).toNat = arg.toNat <<< 16 := by
    simp [Nat.shiftLeft_eq]
    omega
  have hop : (op.setWidth 32).toNat = op.toNat := BitVec.toNat_setWidth_of_le (by decide)
  rw [BitVec.toNat_or, harg, hop, ← Nat.shiftLeft_add_eq_or_of_lt (by omega), Nat.shiftLeft_eq, cmdWord_toNat]

/-- No write accepts more bytes than it is given (20_memory.md rule R41). -/
theorem State.rbAccepts_le_count (s : State) (n : Nat) : s.rbAccepts n ≤ n := Nat.min_le_left _ _

/-- A write accepts all its bytes exactly when they fit into the free space. -/
theorem State.rbAccepts_eq_iff (s : State) (n : Nat) :
    s.rbAccepts n = n ↔ n ≤ s.cfg.cap.toNat - s.rb.length := min_eq_left_iff

theorem countResult_toNat {k : Nat} (h : k < 2 ^ 16) : (countResult k).toNat = k :=
  Nat.mod_eq_of_lt h

/-- Settles O15: the accepted count is at most n, so RESULT holds it whole. -/
theorem putAppendsAcceptedPrefix : Obligations.PutAppendsAcceptedPrefix := by
  intro n data s _ k
  have hk : (countResult k).toNat = k :=
    countResult_toNat ((s.rbAccepts_le_count n.toNat).trans_lt n.isLt)
  refine ⟨cmdWord_eq_shift n 1#4, countResult k, hk, ?_, by rw [exec_put, putBytes_eq]; rfl⟩
  rw [← BitVec.toNat_inj, hk]
  exact s.rbAccepts_eq_iff n.toNat

/-- Settles O16: both commands are the facade's Put. -/
theorem putIsrActsAsPut : Obligations.PutIsrActsAsPut := by
  intro n data s _ k
  refine ⟨cmdWord_eq_shift n 2#4, ?_, ?_⟩
  · rw [exec_putIsr, exec_put]
  · rw [exec_putIsr, putBytes_eq]
    rfl

/-! #### RESET -/

/-- Settles O17: the invariant keeps COUNT within CAP, so RESULT holds it whole. -/
theorem resetDiscardsAndForcesFfb : Obligations.ResetDiscardsAndForcesFfb := by
  refine ⟨rfl, fun s hs => ⟨countResult s.rbCount, ?_, exec_reset s⟩⟩
  exact countResult_toNat (hs.rb_le_cap.trans_lt s.cfg.cap.isLt)

/-! #### SET_STATE and GET_STATE -/

/-- The number of a state, as an operand, names that state (30_encoding.md rule R69). -/
@[simp] theorem stateOperand_stateResult (p : ParserState) : stateOperand (stateResult p) = some p := by
  cases p <;> rfl

/-- SET_STATE with the number of a state moves STATE there and answers the number. -/
theorem exec_setState_of_state {v : BitVec 16} {p : ParserState} (h : v = stateResult p) (s : State) :
    exec (.setState v) s = .next ({ s with state := p }.respond .ok v) := by
  subst h
  simp [execSetState]

/-- Settles O18: 0, 1 and 2 are the numbers of the states, and a value above 2 names none. -/
theorem setStateAcceptsOrRejects : Obligations.SetStateAcceptsOrRejects := by
  intro v s
  refine ⟨cmdWord_eq_shift v 6#4, fun h => ?_, fun h => ?_, fun h => ?_, fun h => ?_⟩
  · exact exec_setState_of_state (p := .ffb) (BitVec.eq_of_toNat_eq h) s
  · exact exec_setState_of_state (p := .fsb) (BitVec.eq_of_toNat_eq h) s
  · exact exec_setState_of_state (p := .wait) (BitVec.eq_of_toNat_eq h) s
  · rw [exec_setState, execSetState_of_gt h, State.respond]
    cases s.state <;> rfl

/-- GET_STATE answers the number of the state the engine is in. -/
theorem exec_getState_of_state {s : State} {p : ParserState} (h : s.state = p) :
    exec .getState s = .next (s.respond .ok (stateResult p)) := by
  rw [exec_getState, h]

/-- Settles O19: the numbers of the three states are 0, 1 and 2. -/
theorem getStateReadsState : Obligations.GetStateReadsState :=
  ⟨rfl, fun _ => ⟨exec_getState_of_state, exec_getState_of_state, exec_getState_of_state⟩⟩

end Sys2Proof.Machine
end

section
/-! ### The reset rules: what construction answers

That every command completes in the new instance is `exec_answers`, which holds of every state. -/

namespace Sys2Proof.Machine

/-- The registers lose nothing of a legal descriptor, whose numbers are within their widths (00_scope.md rule R4). -/
theorem toNat_toCfg {d : Descriptor} (h : d.valid) :
    (d.toCfg h).cap.toNat = d.cap ∧ (d.toCfg h).n.toNat = d.n ∧ (d.toCfg h).m0.toNat = d.m0 ∧
      (d.toCfg h).m1.toNat = d.m1 ∧ (d.toCfg h).threshold.toNat = d.threshold := by
  obtain ⟨-, hcap, -, hn, -, hm0, hm1, hth, -, -⟩ := h
  exact ⟨Nat.mod_eq_of_lt (Nat.lt_succ_of_le hcap), Nat.mod_eq_of_lt (Nat.lt_succ_of_le hn),
    Nat.mod_eq_of_lt (Nat.lt_succ_of_le hm0), Nat.mod_eq_of_lt (Nat.lt_succ_of_le hm1),
    Nat.mod_eq_of_lt (Nat.lt_succ_of_le hth)⟩

/-- Settles O39: the instance is the construction state of the descriptor's registers, which hold its numbers. -/
theorem constructionState : Obligations.ConstructionState := by
  intro d s hs
  obtain ⟨hd, rfl⟩ := construct_eq_some_iff.1 hs
  obtain ⟨hcap, hn, hm0, hm1, hth⟩ := toNat_toCfg hd
  refine ⟨rfl, rfl, rfl, hcap, hn, hm0, hm1, hth, rfl, fun i => ?_⟩
  obtain ⟨t, _, ht, _⟩ := exec_answers i (State.ofCfg (d.toCfg hd))
  exact ⟨t, ht⟩

end Sys2Proof.Machine
end

section
/-! ### The driver's bound, the byte FSB takes, and PROCESS on an empty RB

What `runDriver_enough` and `runDriver_cases` say of a whole driver run, and PROCESS in FSB (40_frame_sync.md
section 4). -/

namespace Sys2Proof.Machine

/-- A driver run with enough invocations ends with a code other than InProgress, after consuming the oldest bytes of RB. -/
theorem runDriver_ends (cap : BitVec 16) (base : Nat) {fuel : Nat} {k : Call} (h : k.m.rb.length < fuel) :
    (runDriver cap base fuel k).rc ≠ .inProgress ∧
      ∃ j, j ≤ k.m.rb.length ∧ (runDriver cap base fuel k).m.rb = k.m.rb.drop j := by
  rcases runDriver_cases cap base fuel k h with ⟨st, j, hj, hm, hrc⟩ | ⟨st, j, hj, ha, hm, hrc⟩
  · exact ⟨by simp [hrc], j, hj, by rw [hm]⟩
  · have hcopy := (copyAllowed_iff.1 ha).2
    simp only [List.length_drop] at hcopy
    refine ⟨?_, j + (k.m.cfg.n.toNat - 2), by omega, by simp [hm]⟩
    rw [hrc]
    split <;> simp

/-- Settles O23: the bound is `runDriver_enough`'s. -/
theorem driverEndsWithinBound : Obligations.DriverEndsWithinBound :=
  fun cap base _ k h => ⟨runDriver_enough cap base k h, runDriver_ends cap base h⟩

/-- In FSB a byte other than M1 brings PROCESS back to FFB, at the bytes after it (40_frame_sync.md rule R93). -/
theorem exec_process_of_ne_m1 (cap : BitVec 16) (base : Nat) {s : State} {b : Byte} {tail : List Byte}
    (hs : s.state = .fsb) (hrb : s.rb = b :: tail) (hb : b ≠ s.cfg.m1) :
    exec (.process cap base) s = exec (.process cap base) { s with state := .ffb, rb := tail } := by
  have hgo := processCall_go ((handler_of_fsb cap base hs).trans (handlerFSB_of_ne_m1 hrb hb))
  rw [exec_process, exec_process, execProcess_eq, execProcess_eq, hgo]

/-- Settles O27. -/
theorem secondByteNeverReexamined : Obligations.SecondByteNeverReexamined := by
  refine fun cap base s b rest hs hrb => ⟨?_, exec_process_of_ne_m1 cap base hs hrb⟩
  rintro rfl
  exact exec_process_of_m1 cap base hs hrb

/-- Settles O33. -/
theorem emptyBufferProcess : Obligations.EmptyBufferProcess :=
  fun cap base _ hrb => exec_process_of_empty cap base hrb

end Sys2Proof.Machine
end

section
/-! ### The scan bound: how many bytes other than M0 a search and a whole driver run consume

One search consumes at most `scanLimit` of them. Under PER_COMMAND a search that finds M0 after `noise` of them leaves
SCAN_CNT higher by `noise + 1`, and the limit of the next search lower by as much or at 1, so the limit of the first
search bounds all of them together. -/

namespace Sys2Proof.Machine

/-- How many of the bytes are other than M0. -/
def noiseCount (m0 : Byte) (bytes : List Byte) : Nat := (bytes.filter (· != m0)).length

section
variable {m0 b : Byte} (bytes : List Byte)

@[simp] theorem noiseCount_nil : noiseCount m0 [] = 0 := rfl

@[simp] theorem noiseCount_m0_cons : noiseCount m0 (m0 :: bytes) = noiseCount m0 bytes := by
  simp [noiseCount]

theorem noiseCount_cons_of_ne (hb : b ≠ m0) : noiseCount m0 (b :: bytes) = noiseCount m0 bytes + 1 := by
  simp [noiseCount, hb]
end

/-! #### One search -/

section
variable {m0 b : Byte} {th : BitVec 16} {cnt : BitVec 17}

/-- A byte other than M0 within the threshold is counted and passed over. -/
theorem scanMarker_of_count_le (tail : List Byte) (hb : b ≠ m0) (h : (cnt + 1#17).toNat ≤ th.toNat) :
    scanMarker m0 th cnt (b :: tail) = scanMarker m0 th (cnt + 1#17) tail := by
  have hth := th.isLt
  have hle : ¬ th.setWidth 17 < cnt + 1#17 := by
    rw [BitVec.lt_def, BitVec.toNat_setWidth]
    omega
  simp only [scanMarker, if_neg hb, if_neg hle]

theorem one_le_scanLimit : 1 ≤ scanLimit th cnt := Nat.le_max_left _ _

/-- A byte that is counted and passed over takes 1 off the scan limit. -/
theorem scanLimit_of_count_le (hcnt : (cnt + 1#17).toNat = cnt.toNat + 1) (h : (cnt + 1#17).toNat ≤ th.toNat) :
    scanLimit th cnt = scanLimit th (cnt + 1#17) + 1 := by
  unfold scanLimit
  omega

/-- The noise that a search consumes is within its limit. If it finds M0, that byte alone is no noise, still within the
limit, and SCAN_CNT has counted every byte consumed. -/
theorem scanMarker_noiseCount (rb : List Byte) (hwrap : cnt.toNat + rb.length < 2 ^ 17) :
    ∃ j, j ≤ rb.length ∧ (scanMarker m0 th cnt rb).rest = rb.drop j ∧
      noiseCount m0 (rb.take j) ≤ scanLimit th cnt ∧
      ((scanMarker m0 th cnt rb).found = true →
        (scanMarker m0 th cnt rb).cnt.toNat = cnt.toNat + j ∧ j = noiseCount m0 (rb.take j) + 1 ∧
          j ≤ scanLimit th cnt) := by
  induction rb generalizing cnt with
  | nil => exact ⟨0, by simp⟩
  | cons b rb ih =>
    have hcnt : (cnt + 1#17).toNat = cnt.toNat + 1 := by simp at hwrap ⊢; omega
    have hlimit := one_le_scanLimit (th := th) (cnt := cnt)
    by_cases hb : b = m0
    · subst hb
      exact ⟨1, by simpa [hcnt] using hlimit⟩
    by_cases hth : th.toNat < (cnt + 1#17).toNat
    · rw [scanMarker_of_count_gt _ hb hth]
      exact ⟨1, by simpa [noiseCount_cons_of_ne _ hb] using hlimit⟩
    · obtain ⟨j, hj, hrest, hnoise, hfound⟩ := ih (cnt := cnt + 1#17) (by simp at hwrap; omega)
      rw [scanMarker_of_count_le _ hb (by omega), scanLimit_of_count_le hcnt (by omega)]
      refine ⟨j + 1, by simpa using hj, by simpa using hrest, ?_⟩
      rw [List.take_succ_cons, noiseCount_cons_of_ne _ hb]
      refine ⟨by omega, fun hf => ?_⟩
      obtain ⟨hc, hm, hl⟩ := hfound hf
      omega
end

/-- A search on a non-empty RB consumes at least one byte (40_frame_sync.md section 2). -/
theorem scanMarker_rest_lt {m0 : Byte} {th : BitVec 16} {cnt : BitVec 17} {rb : List Byte} (h : rb ≠ []) :
    (scanMarker m0 th cnt rb).rest.length < rb.length := by
  obtain ⟨b, tail, rfl⟩ := List.exists_cons_of_ne_nil h
  simp only [scanMarker, List.length_cons]
  split_ifs
  · simp
  · simp
  · obtain ⟨j, -, hr, -⟩ := scanMarker_rest m0 th (cnt + 1#17) tail
    rw [hr, List.length_drop]
    omega

theorem handlerFFB_rb (k : Call) :
    (handlerFFB k).m.rb = (scanMarker k.m.cfg.m0 k.m.cfg.threshold k.searchStart k.m.rb).rest := by
  unfold handlerFFB Call.searchStart
  dsimp only
  split_ifs <;> rfl

theorem ffbNoise_of_drop {k : Call} {j : Nat} (hj : j ≤ k.m.rb.length) (h : (handlerFFB k).m.rb = k.m.rb.drop j) :
    ffbNoise k = noiseCount k.m.cfg.m0 (k.m.rb.take j) := by
  have hlen : k.m.rb.length - (handlerFFB k).m.rb.length = j := by
    rw [h, List.length_drop]
    omega
  rw [ffbNoise, hlen, noiseCount]

/-- A HandlerFFB invocation consumes noise within its limit and breaks, or it finds M0: it then goes on in FSB with
SCAN_CNT higher by the noise and the M0 consumed, which together are within the limit. -/
theorem handlerFFB_cases {k : Call} (hwrap : k.searchStart.toNat + k.m.rb.length < 2 ^ 17) :
    ((handlerFFB k).rc = .brk ∧ ffbNoise k ≤ scanLimit k.m.cfg.threshold k.searchStart) ∨
      ∃ cnt, cnt.toNat = k.searchStart.toNat + (ffbNoise k + 1) ∧
        ffbNoise k + 1 ≤ scanLimit k.m.cfg.threshold k.searchStart ∧ ffbNoise k + 1 ≤ k.m.rb.length ∧
        handlerFFB k = ⟨k.m.searched .fsb (ffbNoise k + 1), cnt, .inProgress⟩ := by
  obtain ⟨j, hj, hrest, hnoise, hfound⟩ :=
    scanMarker_noiseCount (m0 := k.m.cfg.m0) (th := k.m.cfg.threshold) k.m.rb hwrap
  have hcount := ffbNoise_of_drop hj ((handlerFFB_rb k).trans hrest)
  rw [← hcount] at hnoise hfound
  generalize hscan : scanMarker k.m.cfg.m0 k.m.cfg.threshold k.searchStart k.m.rb = r at hrest hfound
  obtain ⟨found, cnt, rest⟩ := r
  cases found with
  | false => exact .inl ⟨by rw [handlerFFB_of_not_found hscan], hnoise⟩
  | true =>
    obtain ⟨hcnt, rfl, hlimit⟩ := hfound rfl
    obtain rfl : rest = k.m.rb.drop _ := hrest
    exact .inr ⟨cnt, hcnt, hlimit, hj, handlerFFB_of_found hscan⟩

theorem ffbNoise_le_scanLimit {k : Call} (hwrap : k.searchStart.toNat + k.m.rb.length < 2 ^ 17) :
    ffbNoise k ≤ scanLimit k.m.cfg.threshold k.searchStart := by
  obtain ⟨-, hnoise⟩ | ⟨cnt, -, hlimit, -, -⟩ := handlerFFB_cases hwrap
  · exact hnoise
  · omega

/-- A search that counts from 0 examines at most THRESHOLD + 1 bytes other than M0. -/
@[simp] theorem scanLimit_zero (th : BitVec 16) : scanLimit th 0#17 = th.toNat + 1 := by
  simp [scanLimit]

/-! #### The searches of one driver run -/

/-- HandlerFSB breaks, or it goes on with one byte less and SCAN_CNT as it was. -/
theorem handlerFSB_cases (k : Call) :
    (handlerFSB k).rc = .brk ∨
      ∃ st, 1 ≤ k.m.rb.length ∧ handlerFSB k = ⟨k.m.searched st 1, k.scanCnt, .inProgress⟩ := by
  cases hrb : k.m.rb with
  | nil => exact .inl (by rw [handlerFSB_of_nil hrb])
  | cons b rest =>
    refine .inr ⟨if b = k.m.cfg.m1 then .wait else .ffb, by simp, ?_⟩
    simp [handlerFSB, State.rbPop_of_cons hrb, State.searched, hrb]

section
variable (cap : BitVec 16) (base fuel : Nat) {k : Call}

theorem driverNoise_of_ffb_brk (hs : k.m.state = .ffb) (h : (handlerFFB k).rc = .brk) :
    driverNoise cap base (fuel + 1) k = ffbNoise k := by
  simp [driverNoise, handler, hs, h]

theorem driverNoise_of_ffb_go (hs : k.m.state = .ffb) (h : (handlerFFB k).rc = .inProgress) :
    driverNoise cap base (fuel + 1) k = ffbNoise k + driverNoise cap base fuel (handlerFFB k) := by
  simp [driverNoise, handler, hs, h]

theorem driverNoise_of_fsb_brk (hs : k.m.state = .fsb) (h : (handlerFSB k).rc = .brk) :
    driverNoise cap base (fuel + 1) k = 0 := by
  simp [driverNoise, handler, hs, h]

theorem driverNoise_of_fsb_go (hs : k.m.state = .fsb) (h : (handlerFSB k).rc = .inProgress) :
    driverNoise cap base (fuel + 1) k = driverNoise cap base fuel (handlerFSB k) := by
  simp [driverNoise, handler, hs, h]

theorem driverNoise_of_wait (hs : k.m.state = .wait) : driverNoise cap base (fuel + 1) k = 0 := by
  simp [driverNoise, handler, hs, handlerWAIT_rc_ne_inProgress]

/-- Under PER_COMMAND all searches of a driver run together stay within the limit of the first. -/
theorem driverNoise_le_scanLimit (hscope : k.m.cfg.scanScope = .perCommand)
    (hwrap : k.scanCnt.toNat + k.m.rb.length < 2 ^ 17) :
    driverNoise cap base fuel k ≤ scanLimit k.m.cfg.threshold k.scanCnt := by
  induction fuel generalizing k with
  | zero => exact Nat.zero_le _
  | succ fuel ih =>
    cases hs : k.m.state with
    | wait => rw [driverNoise_of_wait cap base fuel hs]; exact Nat.zero_le _
    | fsb =>
      obtain hbrk | ⟨st, hrb, hgo⟩ := handlerFSB_cases k
      · rw [driverNoise_of_fsb_brk cap base fuel hs hbrk]
        exact Nat.zero_le _
      · rw [driverNoise_of_fsb_go cap base fuel hs (by rw [hgo]), hgo]
        exact ih (k := ⟨k.m.searched st 1, k.scanCnt, .inProgress⟩) hscope (by simp; omega)
    | ffb =>
      have hstart : k.searchStart = k.scanCnt := by rw [Call.searchStart, hscope, scanStart]
      obtain ⟨hbrk, hnoise⟩ | ⟨cnt, hcnt, hlimit, hrb, hgo⟩ := handlerFFB_cases (hstart ▸ hwrap)
      · rw [driverNoise_of_ffb_brk cap base fuel hs hbrk, ← hstart]
        exact hnoise
      · rw [driverNoise_of_ffb_go cap base fuel hs (by rw [hgo]), hgo]
        rw [hstart] at hcnt hlimit
        have hrest := ih (k := ⟨k.m.searched .fsb (ffbNoise k + 1), cnt, .inProgress⟩) hscope (by simp; omega)
        simp only [State.searched_cfg, scanLimit] at hrest hlimit ⊢
        omega
end

/-- In a state that meets the invariant, SCAN_CNT cannot wrap in a PROCESS (log 12). -/
theorem State.Inv.rb_lt {s : State} (h : s.Inv) : (0#17).toNat + s.rb.length < 2 ^ 17 := by
  have hcap := h.rb_le_cap
  have hcap16 := s.cfg.cap.isLt
  simp
  omega

/-- Settles O25: under either scope the first search, and under PER_ENTRY every search, counts from 0. -/
theorem scanBoundThresholdPlusOne : Obligations.ScanBoundThresholdPlusOne := by
  refine ⟨fun cap base s hs hscope => ?_, fun k hk hzero => ?_, fun k hrb => ?_⟩
  · rw [← scanLimit_zero]
    exact driverNoise_le_scanLimit cap base _ (k := ⟨s, 0#17, .inProgress⟩) hscope hs.rb_lt
  · have hstart : k.searchStart = 0#17 := by
      obtain hscope | hcnt := hzero
      · rw [Call.searchStart, hscope, scanStart]
      · rw [Call.searchStart, hcnt, scanStart_zero]
    rw [← scanLimit_zero, ← hstart]
    exact ffbNoise_le_scanLimit (hstart ▸ hk.rb_lt)
  · rw [handlerFFB_rb]
    exact scanMarker_rest_lt hrb

end Sys2Proof.Machine
end

section
/-! ### The CRC's bit-serial form, its worked examples, and the one checksum byte that validates a payload -/

namespace Sys2Proof.Machine

/-! #### The bit-serial form -/

/-- Bits that are XORed into the register before CrcBit: the top one acts as the bit-serial form's next bit, the others
stay in the register, shifted. -/
theorem crcBit_xor (c x : BitVec 16) : crcBit (c ^^^ x) = crcSerialBit c (x.getLsbD 15) ^^^ x <<< 1 := by
  rw [crcBit, crcSerialBit, BitVec.getLsbD_xor, BitVec.shiftLeft_xor_distrib]
  split_ifs
  · ac_rfl
  · rfl

/-- The bit-serial form over the top `k` bits of `x`, the highest first. -/
def crcSerialTop (x : BitVec 16) (k : Nat) (c : BitVec 16) : BitVec 16 :=
  (List.range k).foldl (fun c i => crcSerialBit c ((x <<< i).getLsbD 15)) c

theorem crcSerialTop_succ (x : BitVec 16) (k : Nat) (c : BitVec 16) :
    crcSerialTop x (k + 1) c = crcSerialTop (x <<< 1) k (crcSerialBit c (x.getLsbD 15)) := by
  simp [crcSerialTop, List.range_succ_eq_map, List.foldl_map, ← BitVec.shiftLeft_add, Nat.add_comm 1]

/-- `k` steps of CrcBit feed the top `k` bits of `x` one at a time. -/
theorem crcBits_xor (k : Nat) (c x : BitVec 16) : crcBits k (c ^^^ x) = crcSerialTop x k c ^^^ x <<< k := by
  induction k generalizing c x with
  | zero => simp [crcBits, crcSerialTop]
  | succ k ih => rw [crcBits, crcBit_xor, ih, ← crcSerialTop_succ, ← BitVec.shiftLeft_add, Nat.add_comm]

/-- The top byte of the register is fed as CrcByteSerial feeds it. -/
theorem crcSerialTop_eight (c : BitVec 16) (b : Byte) :
    crcSerialTop (b.setWidth 16 <<< 8) 8 c = crcByteSerial c b := by
  simp [crcSerialTop, crcByteSerial, List.range_succ]

/-- Settles O37: after eight steps nothing of the byte is left in the register. -/
theorem crcByteEqualsSerialForm : Obligations.CrcByteEqualsSerialForm := by
  intro c b
  have hgone : b.setWidth 16 <<< 8 <<< 8 = 0#16 := by
    rw [← BitVec.shiftLeft_add]
    exact BitVec.shiftLeft_eq_zero (by decide)
  rw [crcByte, crcBits_xor, hgone, BitVec.xor_zero, crcSerialTop_eight]

/-! #### Worked examples -/

/-- Settles O38. -/
theorem crcWorkedExamples : Obligations.CrcWorkedExamples := by
  unfold Obligations.CrcWorkedExamples
  decide +kernel

/-! #### The checksum byte -/

/-- PROCESS in WAIT validates a payload exactly with the low byte of its CRC. -/
theorem exec_process_wait_validates_iff {cap : BitVec 16} {s : State} {payload rest : List Byte} {chk : Byte}
    (base : Nat) (hw : s.state = .wait) (hcap : s.cfg.n.toNat ≤ cap.toNat)
    (hlen : payload.length = s.cfg.n.toNat - 3) (hrb : s.rb = payload ++ chk :: rest) :
    (∃ t, exec (.process cap base) s = .next t ∧ t.response = some ⟨.ok, s.cfg.n⟩) ↔ crcLow (crc16 payload) = chk := by
  have hn := (cfg_n_ne_zero s.cfg).symm
  simp [exec_process_wait_answer base hw hcap hlen hrb, hn]

/-- Settles O50. -/
theorem oneChecksumByteValidates : Obligations.OneChecksumByteValidates := by
  intro cap base s payload rest hw hcap hlen
  have hiff : ∀ chk : Byte, (∃ t, exec (.process cap base) { s with rb := payload ++ chk :: rest } = .next t ∧
      t.response = some ⟨.ok, s.cfg.n⟩) ↔ crcLow (crc16 payload) = chk := fun chk =>
    exec_process_wait_validates_iff (s := { s with rb := payload ++ chk :: rest }) base hw hcap hlen rfl
  simp only [hiff]
  exact existsUnique_eq'

end Sys2Proof.Machine
end

section
/-! ### The command port and the facade: example words, stray payloads, the idle engine, repeated commands, and RESET
after any run -/

namespace Sys2Proof.Machine

/-! #### Transactions -/

/-- A transaction that encodes a well-formed command decodes to it. -/
theorem decode_of_encode {t : Transaction} {i : Instr} (ht : encode i = t) (hi : i.wellFormed = true) :
    decode t = .ok i :=
  ht ▸ decodeInvertsEncode i hi

/-- Settles O1: each example word is the encoding of the command it is listed with. -/
theorem sampleWordsDecode : Obligations.SampleWordsDecode := by
  refine ⟨fun data h => decode_of_encode rfl ?_, fun data h => decode_of_encode rfl ?_,
    fun base => decode_of_encode rfl rfl, fun base => decode_of_encode rfl rfl, decode_of_encode rfl rfl,
    decode_of_encode rfl rfl, decode_of_encode rfl rfl, decode_of_encode rfl rfl, decode_of_encode rfl (by decide),
    decode_of_encode rfl (by decide), decode_of_encode rfl (by decide)⟩
  · simp [Instr.wellFormed, h]
  · simp [Instr.wellFormed, h]

/-- A PROCESS word decodes exactly with a destination (30_encoding.md rule R60). -/
theorem decodes_process_iff {w : CmdWord} (hw : classify w = .process) (p : Payload) :
    (∃ i, decode ⟨w, p⟩ = .ok i) ↔ ∃ base, p = .dest base := by
  simp [decode_eq_ok, hw]

theorem decode_process_bytes {w : CmdWord} (hw : classify w = .process) (data : List Byte) :
    decode ⟨w, .bytes data⟩ = .error .destination := by
  simp [decode, hw, destOf, Except.map]

theorem decode_dest_of_ne_process {w : CmdWord} (hw : classify w ≠ .process) (base : Nat) :
    decode ⟨w, .dest base⟩ = .error .destination := by
  cases hc : classify w with
  | process => exact absurd hc hw
  | put | putIsr | reset | getState | setState | illegal => simp [decode, hc, dataOf, Except.map]

/-- Data bytes after a word that fixes none are refused as that (30_encoding.md rule R68). -/
theorem decode_stray_bytes {w : CmdWord} {data : List Byte} (hput : classify w ≠ .put) (hisr : classify w ≠ .putIsr)
    (hprocess : classify w ≠ .process) (hdata : data ≠ []) : decode ⟨w, .bytes data⟩ = .error .dataCount := by
  have hcount : dataOf (.bytes data) 0 = .error .dataCount :=
    dataOf_bytes_of_length_ne (mt List.length_eq_zero_iff.1 hdata)
  cases hc : classify w with
  | put => exact absurd hc hput
  | putIsr => exact absurd hc hisr
  | process => exact absurd hc hprocess
  | reset | getState | setState | illegal => simp [decode, hc, hcount, Except.map]

/-- Settles O9: a step refuses what the decoder does. -/
theorem strayPayloadHasNoMove : Obligations.StrayPayloadHasNoMove := by
  refine ⟨fun w p hw => decodes_process_iff hw p, fun s w later => ⟨?_, ?_, ?_⟩⟩
  · intro data hput hisr hprocess hdata hp
    exact step_of_decode_error hp (decode_stray_bytes hput hisr hprocess hdata)
  · intro data hw hp
    exact step_of_decode_error hp (decode_process_bytes hw data)
  · intro base hw hp
    exact step_of_decode_error hp (decode_dest_of_ne_process hw base)

/-- Settles O10. -/
theorem idleEngineKeepsState : Obligations.IdleEngineKeepsState := fun _ => step_of_port_nil

/-! #### Repeated commands -/

/-- SET_STATE again finds STATE where it left it, whether its operand named a state or not. -/
theorem exec_setState_idempotent {v : BitVec 16} {s t : State} (h : exec (.setState v) s = .next t) :
    exec (.setState v) t = .next t := by
  obtain rfl := Host.Outcome.next.inj (h.symm.trans (execSetState_eq v s))
  rw [exec_setState, execSetState_eq]
  cases stateOperand v <;> rfl

/-- Settles O20: GET_STATE and an illegal word change nothing they read, and RESET leaves no byte to discard. -/
theorem idempotentCommands : Obligations.IdempotentCommands := by
  refine ⟨?_, fun s => ⟨_, exec_reset s, rfl⟩⟩
  rintro i s (rfl | ⟨v, rfl⟩ | ⟨w, rfl⟩)
  · exact ⟨_, exec_getState s, rfl⟩
  · exact ⟨_, execSetState_eq v s, exec_setState_idempotent (execSetState_eq v s)⟩
  · exact ⟨_, exec_illegal s w, rfl⟩

/-! #### RESET after any run -/

/-- What every step keeps, every run keeps. -/
theorem run_induct {P : State → Prop} (hstep : ∀ s t, P s → step s = .next t → P t) {k : Nat} {s t : State}
    (hs : P s) (hrun : Sys2Proof.core.run k s = .next t) : P t := by
  induction k generalizing s with
  | zero => exact Host.Outcome.next.inj hrun ▸ hs
  | succ k ih =>
    rcases stepStopsOnlyOnMalformedTransactions s with ⟨s', hs'⟩ | ⟨w, later, e, -, -, hrefused⟩
    · exact ih (hstep s s' hs hs') ((run_succ hs' k).symm.trans hrun)
    · have hcore : Sys2Proof.core.step s = .refused (portRefusal e) := hrefused
      simp [Host.Core.run, hcore] at hrun

theorem step_keeps_cfg {s t : State} (h : step s = .next t) : t.cfg = s.cfg := by
  obtain ⟨-, rfl⟩ | ⟨tr, later, i, -, -, he⟩ := step_cases h
  · rfl
  · exact (exec_keeps_cfg_port he).1

/-- No run writes CFG (10_state.md rule R24). -/
theorem run_keeps_cfg {k : Nat} {s t : State} (h : Sys2Proof.core.run k s = .next t) : t.cfg = s.cfg :=
  run_induct (P := fun u => u.cfg = s.cfg) (fun _ _ hu hstep => (step_keeps_cfg hstep).trans hu) rfl h

/-- Settles O43: RESET empties RB and forces FFB, as after construction, and CFG is still the one constructed. -/
theorem resetEqualsFreshConstruction : Obligations.ResetEqualsFreshConstruction := by
  intro d fresh t commands k hfresh hrun
  obtain ⟨hd, rfl⟩ := construct_eq_some_iff.1 hfresh
  have hcfg : t.cfg = d.toCfg hd := run_keeps_cfg hrun
  exact ⟨_, exec_reset t, rfl, rfl, hcfg⟩

end Sys2Proof.Machine
end
